-- ==== Sys2Proof/Word.lean ====
section
/-! DEFINITION. The word and byte types of the β and their plainest helper (spec/00_scope.md R7, R15). -/

namespace Sys2Proof

/-- A word: 32 bits, bit 31 the most significant (00_scope.md R7, R15). -/
abbrev Word := BitVec 32

/-- A byte of the byte-addressed memory, 8 bits (20_memory.md R50). -/
abbrev Byte := BitVec 8

/-- The number of a general register, a 5-bit instruction field (10_state.md R20). -/
abbrev Reg := BitVec 5

/-- The 16-bit two's-complement literal of a With-Literal instruction (30_encoding.md R82, R84). -/
abbrev Literal := BitVec 16

end Sys2Proof
end

