-- ==== Sys2Proof/Config.lean ====
section
/-! DEFINITION. The parameters the spec leaves to the implementation (spec/00_scope.md R8 to R14, 92_eei_decisions.md), as plain data a
State carries, and the free values, which are functions and so stand here as constants without a body. -/

namespace Sys2Proof

/-- An interrupt source, named by a number (00_scope.md R10; log 8). -/
abbrev IrqSource := Nat

/-- Bits 30:2 of an exception vector. Its bits 31, 1 and 0 are 0 (00_scope.md R9), so these 29 bits are the whole vector. -/
abbrev VectorIndex := BitVec 29

/-- BYTE_ORDER (20_memory.md R55). -/
inductive ByteOrder where
  /-- The byte at the lowest address holds bits 7:0; the spec's default (D1). -/
  | little
  /-- The byte at the lowest address holds bits 31:24. -/
  | big
deriving DecidableEq, Repr

/-- MISALIGNED_POLICY (20_memory.md R56). -/
inductive MisalignedPolicy where
  /-- The access has no meaning: the model has no step for it. -/
  | refuse
  /-- The access is performed at the address with its low two bits cleared. -/
  | ignoreLowBits
deriving DecidableEq, Repr

/-- PRIV_EXEC (00_scope.md R11, 46_privileged_illegal.md R230; log 11). -/
inductive PrivExec where
  /-- The model gives no word a meaning; the spec's default (D10). -/
  | refuse
  /-- The implementation defines no instruction at all: every word is an illegal instruction in supervisor mode (R230, R234). -/
  | noInstruction
  /-- The implementation's own PRIV_EXEC: the parameter Config.privExecOutcome, of the state and the word. -/
  | implementation
deriving DecidableEq, Repr

/-- SUPERVISOR_FAULT (00_scope.md R12, 46_privileged_illegal.md R234; log 12). -/
inductive SupervisorFault where
  /-- The machine faults; the spec's default (D9). -/
  | fault
  /-- The implementation's own SUPERVISOR_FAULT: the parameter Config.supervisorFaultOutcome, of the state. -/
  | implementation
deriving DecidableEq, Repr

/-- A range of byte addresses that MEM_MAP backs with storage (00_scope.md R13). -/
structure Region where
  base : Nat
  size : Nat
deriving DecidableEq, Repr

/-- MEM_MAP (00_scope.md R13): what an access to an address that no storage backs does (log 13). -/
inductive UnbackedAccess where
  /-- The model gives the access no meaning; the spec's default (D15). -/
  | refuse
  /-- The implementation's own MEM_MAP: the parameter Config.unbackedOutcome, of the state, the access and the address. -/
  | implementation
deriving DecidableEq, Repr

/-- The configuration of a machine, fixed for a run (10_state.md R36; log 5). -/
structure Config where
  /-- HAS_MULDIV (R8). -/
  hasMulDiv : Bool
  /-- VEC_ILLOP (R9). -/
  vecIllop : VectorIndex
  /-- IrqSource and VEC_IRQ (R9, R10): the sources there are, each with its vector. -/
  irqVectors : List (IrqSource × VectorIndex)
  /-- PRIV_EXEC (R11). -/
  privExec : PrivExec
  /-- SUPERVISOR_FAULT (R12). -/
  supervisorFault : SupervisorFault
  /-- MISALIGNED_POLICY (R14). -/
  misaligned : MisalignedPolicy
  /-- BYTE_ORDER (R14). -/
  byteOrder : ByteOrder
  /-- MEM_MAP (R13): the byte addresses backed by storage. -/
  backed : List Region
  /-- MEM_MAP (R13): whether the byte address a + 2^31 names the byte at a. -/
  aliasBit31 : Bool
  /-- MEM_MAP (R13): what an access to an unbacked address does. -/
  unbacked : UnbackedAccess
deriving DecidableEq, Repr

/-- What PRIV_EXEC, SUPERVISOR_FAULT and MEM_MAP see of the machine: the state `(x[0..30], pc, Mem)` of 60_exceptions.md R296 and the pending
requests, which a device behind PRIV_EXEC or MEM_MAP may withdraw (R275, D19). They see the memory by its aligned words (20_memory.md R51) and not
its bytes, a DESIGN CHOICE: R55 says that the byte order matters to whoever shares memory with a device (logs 11, 12 and 13). An argument of these
three parameters only; no field of State has this type. -/
structure ArchView where
  /-- `x[r]`; register 31 reads 0. -/
  reg : Reg → Word
  /-- The PC: of the instruction itself, but at the data access of LD, LDR and ST, where it is advanced (log 37). -/
  pc : Word
  /-- The word at byte address `4 * i`. -/
  word : BitVec 30 → Word
  pending : List IrqSource

/-- The next state such a parameter gives. The PC stays a multiple of 4 (10_state.md R26) and keeps its Supervisor bit, on which no instruction but
JMP has any effect (10_state.md R29), so its bits 30:2 say all of it (log 11). -/
structure ArchEffect where
  /-- R0 to R30. -/
  regs : Vector Word 31
  /-- Bits 30:2 of the PC. -/
  pcIndex : BitVec 29
  /-- The words stored, in order, each at byte address `4 * i`. -/
  stores : List (BitVec 30 × Word)
  /-- The requests pending afterwards, until the environment's next input (log 38). -/
  pending : List IrqSource
deriving DecidableEq, Repr

/-- An outcome of such a parameter. -/
inductive ParamOutcome where
  /-- The machine stops. -/
  | fault
  /-- No meaning is given. -/
  | refuse
  /-- The machine goes on. -/
  | effect (e : ArchEffect)
deriving DecidableEq, Repr, Inhabited

/-- PRIV_EXEC of the implementation (00_scope.md R11): its outcome for a state and a word of opcode 0x00, or `none` where it defines no instruction
for the word (46_privileged_illegal.md R230). A parameter with no value here: what is proved holds for every PRIV_EXEC (log 11). -/
opaque Config.privExecOutcome : ArchView → Word → Option ParamOutcome

/-- SUPERVISOR_FAULT of the implementation (00_scope.md R12): its outcome for a state. A parameter with no value here (log 12). -/
opaque Config.supervisorFaultOutcome : ArchView → ParamOutcome

/-- An access of a word, as MEM_MAP sees it: MemRead, which a fetch is too (20_memory.md R53, R57), or MemWrite (R54). -/
inductive Access where
  | read
  | write (v : Word)
deriving DecidableEq, Repr

/-- What the implementation's own MEM_MAP makes of an access to an unbacked address: the word read, and the side effects of a device there
(20_memory.md R59, R67): words stored and requests raised or withdrawn (92_eei_decisions.md D19). It raises no exception and no fault
(20_memory.md R61, 60_exceptions.md R273; log 13). -/
structure AccessEffect where
  /-- The word a read returns; a write has no use for it. -/
  value : Word
  /-- The words stored, in order, each at byte address `4 * i`. -/
  stores : List (BitVec 30 × Word)
  /-- The requests pending afterwards, until the environment's next input (log 38). -/
  pending : List IrqSource
deriving DecidableEq, Repr

/-- MEM_MAP of the implementation, for the addresses no storage backs (00_scope.md R13): its outcome for a state, an access and the word at byte
address `4 * i`, or `none` where it gives the access no meaning. A parameter with no value here: what is proved holds for every MEM_MAP (log 13). -/
opaque Config.unbackedOutcome : ArchView → Access → BitVec 30 → Option AccessEffect

/-- DIV_BY_ZERO (00_scope.md R14, 40_arithmetic.md R116): the word DIV and DIVC write for a zero divisor, given the dividend. Free (log 16). -/
opaque Config.divByZero : Word → Word

/-- What a byte of memory that nothing has written holds, given its address (10_state.md R37, R38). Free (log 3). -/
opaque Config.initialByte : Nat → Byte

/-- Bits 30:2 of VEC_ILLOP for the machine State.reset describes (92_eei_decisions.md D8 gives no default). Free (log 7). -/
opaque Config.resetVecIllop : VectorIndex

end Sys2Proof
end

