-- ==== Sys2Proof/Syntax.lean ====
section
/-! DEFINITION. The instructions of the β: one constructor per row of spec/opcode_table.json (30_encoding.md R87).
The fields of a constructor are the fields of the word below the opcode, from the high bits to the low ones. The idle fields (R90 bits
10:0 of the Without-Literal format, R91 the literal of JMP, R92 the Ra field of LDR) are kept in the syntax, so that decoding drops no
bit of a word; no meaning receives them. -/

namespace Sys2Proof

inductive Instr where
  /-- Any word of opcode 0x00, the privileged opcode; its 26 other bits have no architected layout (R94). -/
  | priv (body : BitVec 26)
  | ld (rc ra : Reg) (lit : Literal)
  /-- `rc` names the register whose contents are stored (R212). -/
  | st (rc ra : Reg) (lit : Literal)
  | jmp (rc ra : Reg) (unused : Literal)
  | beq (rc ra : Reg) (lit : Literal)
  | bne (rc ra : Reg) (lit : Literal)
  | ldr (rc raIgnored : Reg) (lit : Literal)
  | add (rc ra rb : Reg) (unused : BitVec 11)
  | sub (rc ra rb : Reg) (unused : BitVec 11)
  | mul (rc ra rb : Reg) (unused : BitVec 11)
  | div (rc ra rb : Reg) (unused : BitVec 11)
  | cmpeq (rc ra rb : Reg) (unused : BitVec 11)
  | cmplt (rc ra rb : Reg) (unused : BitVec 11)
  | cmple (rc ra rb : Reg) (unused : BitVec 11)
  | and (rc ra rb : Reg) (unused : BitVec 11)
  | or (rc ra rb : Reg) (unused : BitVec 11)
  | xor (rc ra rb : Reg) (unused : BitVec 11)
  | xnor (rc ra rb : Reg) (unused : BitVec 11)
  | shl (rc ra rb : Reg) (unused : BitVec 11)
  | shr (rc ra rb : Reg) (unused : BitVec 11)
  | sra (rc ra rb : Reg) (unused : BitVec 11)
  | addc (rc ra : Reg) (lit : Literal)
  | subc (rc ra : Reg) (lit : Literal)
  | mulc (rc ra : Reg) (lit : Literal)
  | divc (rc ra : Reg) (lit : Literal)
  | cmpeqc (rc ra : Reg) (lit : Literal)
  | cmpltc (rc ra : Reg) (lit : Literal)
  | cmplec (rc ra : Reg) (lit : Literal)
  | andc (rc ra : Reg) (lit : Literal)
  | orc (rc ra : Reg) (lit : Literal)
  | xorc (rc ra : Reg) (lit : Literal)
  | xnorc (rc ra : Reg) (lit : Literal)
  | shlc (rc ra : Reg) (lit : Literal)
  | shrc (rc ra : Reg) (lit : Literal)
  | srac (rc ra : Reg) (lit : Literal)
deriving DecidableEq, Repr

/-- BF is another spelling of BEQ (30_encoding.md R99). -/
abbrev Instr.bf (rc ra : Reg) (lit : Literal) : Instr := .beq rc ra lit

/-- BT is another spelling of BNE (30_encoding.md R99). -/
abbrev Instr.bt (rc ra : Reg) (lit : Literal) : Instr := .bne rc ra lit

end Sys2Proof
end

