-- ==== Sys2Proof/Decode.lean ====
section
/-! DEFINITION. Decoding and encoding (spec/30_encoding.md R80 to R97), and the order of a word's bytes (20_memory.md R55). -/

namespace Sys2Proof

/-- `iw[31:26]` (R81, R82). -/
def opcodeOf (w : Word) : BitVec 6 := w.extractLsb' 26 6

/-- `iw[25:21]` (R81, R82). -/
def rcOf (w : Word) : Reg := w.extractLsb' 21 5

/-- `iw[20:16]` (R81, R82). -/
def raOf (w : Word) : Reg := w.extractLsb' 16 5

/-- `iw[15:11]` (R81). -/
def rbOf (w : Word) : Reg := w.extractLsb' 11 5

/-- `iw[15:0]` (R82). -/
def litOf (w : Word) : Literal := w.extractLsb' 0 16

/-- `iw[10:0]`, unused (R81, R90). -/
def unusedOf (w : Word) : BitVec 11 := w.extractLsb' 0 11

/-- `iw[25:0]`, the bits of a privileged word below its opcode (R94). -/
def bodyOf (w : Word) : BitVec 26 := w.extractLsb' 0 26

/-- Why bytes are no instruction. -/
inductive DecodeError where
  /-- The word's opcode is unassigned (R93); the word is an illegal instruction (46_privileged_illegal.md R233). -/
  | illegalOpcode (opcode : BitVec 6)
  /-- Not exactly the four bytes of a word were given (R80, R97). -/
  | notOneWord
deriving DecidableEq, Repr

/-- The instruction of a Without-Literal opcode, given the word (R81). -/
def decodeOperate (mk : Reg → Reg → Reg → BitVec 11 → Instr) (w : Word) : Instr :=
  mk (rcOf w) (raOf w) (rbOf w) (unusedOf w)

/-- The instruction of a With-Literal opcode, given the word (R82). -/
def decodeLiteral (mk : Reg → Reg → Literal → Instr) (w : Word) : Instr :=
  mk (rcOf w) (raOf w) (litOf w)

/-- The optional opcodes: MUL, DIV, MULC, DIVC (R95). -/
def optionalOpcodes : List (BitVec 6) := [0x22, 0x23, 0x32, 0x33]

/-- The opcode map of a machine that has the optional opcodes: the opcode alone selects the instruction (R87, R89). -/
def decodeAssigned (w : Word) : Except DecodeError Instr :=
  match (opcodeOf w).toNat with
  | 0x00 => .ok (.priv (bodyOf w))
  | 0x18 => .ok (decodeLiteral .ld w)
  | 0x19 => .ok (decodeLiteral .st w)
  | 0x1B => .ok (decodeLiteral .jmp w)
  | 0x1C => .ok (decodeLiteral .beq w)
  | 0x1D => .ok (decodeLiteral .bne w)
  | 0x1F => .ok (decodeLiteral .ldr w)
  | 0x20 => .ok (decodeOperate .add w)
  | 0x21 => .ok (decodeOperate .sub w)
  | 0x22 => .ok (decodeOperate .mul w)
  | 0x23 => .ok (decodeOperate .div w)
  | 0x24 => .ok (decodeOperate .cmpeq w)
  | 0x25 => .ok (decodeOperate .cmplt w)
  | 0x26 => .ok (decodeOperate .cmple w)
  | 0x28 => .ok (decodeOperate .and w)
  | 0x29 => .ok (decodeOperate .or w)
  | 0x2A => .ok (decodeOperate .xor w)
  | 0x2B => .ok (decodeOperate .xnor w)
  | 0x2C => .ok (decodeOperate .shl w)
  | 0x2D => .ok (decodeOperate .shr w)
  | 0x2E => .ok (decodeOperate .sra w)
  | 0x30 => .ok (decodeLiteral .addc w)
  | 0x31 => .ok (decodeLiteral .subc w)
  | 0x32 => .ok (decodeLiteral .mulc w)
  | 0x33 => .ok (decodeLiteral .divc w)
  | 0x34 => .ok (decodeLiteral .cmpeqc w)
  | 0x35 => .ok (decodeLiteral .cmpltc w)
  | 0x36 => .ok (decodeLiteral .cmplec w)
  | 0x38 => .ok (decodeLiteral .andc w)
  | 0x39 => .ok (decodeLiteral .orc w)
  | 0x3A => .ok (decodeLiteral .xorc w)
  | 0x3B => .ok (decodeLiteral .xnorc w)
  | 0x3C => .ok (decodeLiteral .shlc w)
  | 0x3D => .ok (decodeLiteral .shrc w)
  | 0x3E => .ok (decodeLiteral .srac w)
  | _ => .error (.illegalOpcode (opcodeOf w))

/-- The decoder (R89): where HAS_MULDIV is false the four optional opcodes are unassigned, and illegal as the other unassigned ones are
(R93, R95). -/
def decodeWord (hasMulDiv : Bool) (w : Word) : Except DecodeError Instr :=
  if !hasMulDiv && optionalOpcodes.contains (opcodeOf w) then .error (.illegalOpcode (opcodeOf w)) else decodeAssigned w

/-- The word whose bytes, from the lowest address up, are `b0 b1 b2 b3` (20_memory.md R55). -/
def wordOfBytes (order : ByteOrder) (b0 b1 b2 b3 : Byte) : Word :=
  match order with
  | .little => b3 ++ b2 ++ b1 ++ b0
  | .big => b0 ++ b1 ++ b2 ++ b3

/-- The byte of `w` that lies `k` addresses above its first byte, `k` from 0 to 3 (20_memory.md R55). -/
def byteOfWord (order : ByteOrder) (w : Word) (k : Nat) : Byte :=
  match order with
  | .little => w.extractLsb' (8 * k) 8
  | .big => w.extractLsb' (8 * (3 - k)) 8

/-- The four bytes of a word, from the lowest address up (20_memory.md R55). -/
def bytesOfWord (order : ByteOrder) (w : Word) : List Byte :=
  [byteOfWord order w 0, byteOfWord order w 1, byteOfWord order w 2, byteOfWord order w 3]

/-- The decoder on any bytes: an instruction is exactly one word of four bytes (R80, R97). -/
def decodeBytes (order : ByteOrder) (hasMulDiv : Bool) (bytes : List Byte) : Except DecodeError Instr :=
  match bytes with
  | [b0, b1, b2, b3] => decodeWord hasMulDiv (wordOfBytes order b0 b1 b2 b3)
  | _ => .error .notOneWord

/-- The host's question to the decoder: the instruction of the word whose low `nbits` bits are those of `w`, laid out as the default
little-endian machine stores it, on a machine that has the optional opcodes, as State.reset's has (log 6). -/
def decodeTableWord (nbits w : Nat) : Option Instr :=
  match decodeBytes .little true (bytesOfWord .little (BitVec.ofNat 32 (w % 2 ^ nbits))) with
  | .ok i => some i
  | .error _ => none

/-- The 6-bit opcode of an instruction (R87; SHL, SHLC, SHR and SHRC by R88, log 25). -/
def Instr.opcode : Instr → BitVec 6
  | .priv _ => 0b000000
  | .ld _ _ _ => 0b011000
  | .st _ _ _ => 0b011001
  | .jmp _ _ _ => 0b011011
  | .beq _ _ _ => 0b011100
  | .bne _ _ _ => 0b011101
  | .ldr _ _ _ => 0b011111
  | .add _ _ _ _ => 0b100000
  | .sub _ _ _ _ => 0b100001
  | .mul _ _ _ _ => 0b100010
  | .div _ _ _ _ => 0b100011
  | .cmpeq _ _ _ _ => 0b100100
  | .cmplt _ _ _ _ => 0b100101
  | .cmple _ _ _ _ => 0b100110
  | .and _ _ _ _ => 0b101000
  | .or _ _ _ _ => 0b101001
  | .xor _ _ _ _ => 0b101010
  | .xnor _ _ _ _ => 0b101011
  | .shl _ _ _ _ => 0b101100
  | .shr _ _ _ _ => 0b101101
  | .sra _ _ _ _ => 0b101110
  | .addc _ _ _ => 0b110000
  | .subc _ _ _ => 0b110001
  | .mulc _ _ _ => 0b110010
  | .divc _ _ _ => 0b110011
  | .cmpeqc _ _ _ => 0b110100
  | .cmpltc _ _ _ => 0b110101
  | .cmplec _ _ _ => 0b110110
  | .andc _ _ _ => 0b111000
  | .orc _ _ _ => 0b111001
  | .xorc _ _ _ => 0b111010
  | .xnorc _ _ _ => 0b111011
  | .shlc _ _ _ => 0b111100
  | .shrc _ _ _ => 0b111101
  | .srac _ _ _ => 0b111110

/-- A Without-Literal word from its fields (R81). -/
def packOperate (op : BitVec 6) (rc ra rb : Reg) (unused : BitVec 11) : Word :=
  op ++ rc ++ ra ++ rb ++ unused

/-- A With-Literal word from its fields (R82). -/
def packLiteral (op : BitVec 6) (rc ra : Reg) (lit : Literal) : Word :=
  op ++ rc ++ ra ++ lit

/-- The bits of an instruction below its opcode (R81, R82, R94). -/
def Instr.encodeWith (op : BitVec 6) : Instr → Word
  | .priv body => op ++ body
  | .ld rc ra lit | .st rc ra lit | .jmp rc ra lit | .beq rc ra lit | .bne rc ra lit | .ldr rc ra lit
  | .addc rc ra lit | .subc rc ra lit | .mulc rc ra lit | .divc rc ra lit
  | .cmpeqc rc ra lit | .cmpltc rc ra lit | .cmplec rc ra lit
  | .andc rc ra lit | .orc rc ra lit | .xorc rc ra lit | .xnorc rc ra lit
  | .shlc rc ra lit | .shrc rc ra lit | .srac rc ra lit => packLiteral op rc ra lit
  | .add rc ra rb u | .sub rc ra rb u | .mul rc ra rb u | .div rc ra rb u
  | .cmpeq rc ra rb u | .cmplt rc ra rb u | .cmple rc ra rb u
  | .and rc ra rb u | .or rc ra rb u | .xor rc ra rb u | .xnor rc ra rb u
  | .shl rc ra rb u | .shr rc ra rb u | .sra rc ra rb u => packOperate op rc ra rb u

/-- The encoder: the one word of an instruction (R80, R81, R82). -/
def encode (i : Instr) : Word := i.encodeWith i.opcode

end Sys2Proof
end

