-- ==== Sys2Proof/Machine/Platform.lean ====
section
/-! DEFINITION. The machine State.reset describes: the parameter values and the register values of the model's choosing, each with its log
entry. Every statement ranges over all configurations and all register values; these are one choice. -/

namespace Sys2Proof.Machine

/-- The configuration at reset. The spec's defaults where it gives one (privExec D10, supervisorFault D9, byteOrder D1, backed,
aliasBit31 and unbacked D15, irqVectors R10); DESIGN CHOICE for hasMulDiv (log 6) and misaligned (log 15); free for vecIllop (log 7). -/
def platformConfig : Config where
  hasMulDiv := true
  vecIllop := Config.resetVecIllop
  irqVectors := []
  privExec := .refuse
  supervisorFault := .fault
  misaligned := .ignoreLowBits
  byteOrder := .little
  backed := [⟨0, 2 ^ 32⟩]
  aliasBit31 := false
  unbacked := .refuse

/-- The value each of R0 to R30 holds in State.reset. DESIGN CHOICE: the spec gives none (log 1, log 2). -/
def resetRegisterValue : Word := 0

end Sys2Proof.Machine
end

