-- ==== Sys2Proof/Machine/State.lean ====
section
/-! DEFINITION. The state of the machine (spec/10_state.md), the reasons a step can stop, and the state after reset. -/

namespace Sys2Proof.Machine

/-- The written bytes of the memory (10_state.md R33): addresses strictly rising, an unlisted byte is one nothing has written. -/
abbrev Memory := List Host.Cell

/-- What the environment presents at one instruction boundary (00_scope.md R10, 60_exceptions.md R276, R277; log 9, log 10). -/
structure Boundary where
  /-- `irq_pending`: the sources requesting service. -/
  pending : List IrqSource
  /-- The source the environment lets be taken here, should the machine be able to take it; `none` lets them wait. -/
  take : Option IrqSource
deriving DecidableEq, Repr

/-- The state: `(x[0..30], pc, Mem)` and the pending interrupts (60_exceptions.md R296, 10_state.md R35), and two fields of the model's own. -/
structure State where
  /-- R0 to R30 (10_state.md R20, R22). R31 has no storage (R21). -/
  regs : Vector Word 31
  /-- The program counter; bit 31 is the Supervisor bit (10_state.md R25). -/
  pc : Word
  /-- The memory (10_state.md R33). -/
  mem : Memory
  /-- The interrupt requests pending: those of the last boundary, or as an effect of PRIV_EXEC, SUPERVISOR_FAULT or MEM_MAP since then left them
  (10_state.md R35; log 38). -/
  pending : List IrqSource
  /-- The MODEL's: the environment's inputs at the coming boundaries, the next one first (log 9). -/
  env : List Boundary
  /-- The MODEL's: the configuration, which no step changes (10_state.md R36; log 5). -/
  cfg : Config
deriving DecidableEq, Repr

/-- Why the machine stops. -/
inductive Fault where
  /-- Raised by an illegal instruction in supervisor mode: SUPERVISOR_FAULT, by default and where the implementation's own says so
  (46_privileged_illegal.md R234, 60_exceptions.md R285). The hardware's effects are implementation-defined, "probably fatal". Safe: nothing is
  claimed past it (log 12). -/
  | supervisorFault
  /-- Raised by opcode 0x00 in supervisor mode where the implementation's PRIV_EXEC says that the machine stops (46_privileged_illegal.md R230).
  Safe (log 11). -/
  | privilegedFault
deriving DecidableEq, Repr

/-- Why the model gives no next state. -/
inductive Refusal where
  /-- Raised by an arm of exec whose instruction has no meaning yet. Safe. -/
  | notModelled (mnemonic : String)
  /-- Raised by opcode 0x00 in supervisor mode: PRIV_EXEC, by default and where the implementation's own gives the word no meaning
  (46_privileged_illegal.md R230). Safe (log 11). -/
  | privilegedUndefined
  /-- Raised by an illegal instruction in supervisor mode where the implementation's SUPERVISOR_FAULT gives it no meaning
  (46_privileged_illegal.md R234). Safe (log 12). -/
  | supervisorFaultUndefined
  /-- Raised by LD and ST at an address that is no multiple of 4 under the policy refuse (20_memory.md R56). Safe (log 15). -/
  | misalignedAccess
  /-- Raised by fetch, LD, LDR and ST at a word no storage backs: by default (00_scope.md R13, 92_eei_decisions.md D15), and where the
  implementation's own MEM_MAP gives the access no meaning. Safe (log 13). -/
  | unbackedAccess
  /-- Raised by a fetch at a PC that is no multiple of 4, which no run reaches (10_state.md R26, 20_memory.md R57). Safe (log 28). -/
  | misalignedFetch
deriving DecidableEq, Repr

/-- Why an access reaches no storage. -/
inductive NoStorage where
  /-- The address is no multiple of 4 and the policy is refuse (20_memory.md R56). -/
  | misaligned
  /-- MEM_MAP does not back all of the word at byte address `4 * index` (00_scope.md R13). -/
  | unbacked (index : BitVec 30)
deriving DecidableEq, Repr

/-- What a meaning answers. -/
abbrev Result := Host.Outcome State Fault Refusal

/-- The state right after the reset exception, for any draw of what the spec leaves unspecified (10_state.md R37, R38; 60_exceptions.md
R295): the PC is at the vector 0 with the Supervisor bit set. -/
def State.powerUp (regs : Vector Word 31) (mem : Memory) (pending : List IrqSource) (env : List Boundary) (cfg : Config) : State where
  regs := regs
  pc := 0x80000000
  mem := mem
  pending := pending
  env := env
  cfg := cfg

/-- The machine right after reset, one draw of State.powerUp: the register values of log 1 and log 2, no byte written (log 3), no request
pending and no input to come (log 4), the configuration of Machine/Platform.lean. -/
def State.reset : State :=
  State.powerUp (Vector.replicate 31 resetRegisterValue) [] [] [] platformConfig

end Sys2Proof.Machine
end

