-- ==== Sys2Proof/Machine/Memory.lean ====
section
/-! DEFINITION. The byte-addressed memory (spec/20_memory.md): reading and writing one byte and four, and the canonical form. -/

namespace Sys2Proof.Machine

/-- The byte written at address `a`, or `none` where nothing has written one. -/
def Memory.read? : Memory → Nat → Option Byte
  | [], _ => none
  | (k, b) :: rest, a => if k = a then some b else Memory.read? rest a

/-- The initial contents of the byte at address `a`: not stated by the source, a free value of the address (10_state.md R37, R38; log 3). -/
def Memory.unwritten (a : Nat) : Byte := Config.initialByte a

/-- The byte at address `a`: the last one written there or, if none, the initial contents (20_memory.md R53). -/
def Memory.byte (m : Memory) (a : Nat) : Byte := (Memory.read? m a).getD (Memory.unwritten a)

/-- Replace the byte at address `a` and no other (20_memory.md R54), keeping the addresses strictly rising. -/
def Memory.write : Memory → Nat → Byte → Memory
  | [], a, v => [(a, v)]
  | (k, b) :: rest, a, v =>
    if a < k then (a, v) :: (k, b) :: rest
    else if a = k then (a, v) :: rest
    else (k, b) :: Memory.write rest a v

/-- The addresses rise strictly from `lo` up and lie in the 2^32-byte address space. -/
def Memory.wfFrom : Nat → Memory → Bool
  | _, [] => true
  | lo, (k, _) :: rest => decide (lo ≤ k) && decide (k < 2 ^ 32) && Memory.wfFrom (k + 1) rest

/-- The canonical form: addresses strictly rising, all in the address space (10_state.md R33). -/
def Memory.wf (m : Memory) : Bool := Memory.wfFrom 0 m

/-- The word at cells `a` to `a + 3` (20_memory.md R53). -/
def Memory.readWord (order : ByteOrder) (m : Memory) (a : Nat) : Word :=
  wordOfBytes order (Memory.byte m a) (Memory.byte m (a + 1)) (Memory.byte m (a + 2)) (Memory.byte m (a + 3))

/-- Replace the bytes at cells `a` to `a + 3` by those of `v`, all four at once (20_memory.md R54). -/
def Memory.writeWord (order : ByteOrder) (m : Memory) (a : Nat) (v : Word) : Memory :=
  Memory.write
    (Memory.write
      (Memory.write (Memory.write m a (byteOfWord order v 0)) (a + 1) (byteOfWord order v 1))
      (a + 2) (byteOfWord order v 2))
    (a + 3) (byteOfWord order v 3)

/-- Store words one after another, each at byte address `4 * i`. -/
def Memory.writeWords (order : ByteOrder) : Memory → List (BitVec 30 × Word) → Memory
  | m, [] => m
  | m, (i, v) :: rest => Memory.writeWords order (Memory.writeWord order m (4 * i.toNat) v) rest

end Sys2Proof.Machine
end

