-- ==== Sys2Proof/Machine/Ops.lean ====
section
/-! DEFINITION. The shared operations: the register file, the PC, memory access by words, taking an exception and the PC of the return from
one, and what happens at an instruction boundary. -/

namespace Sys2Proof.Machine

/-! The register file -/

/-- `x[r]`: register 31 reads 0, every other its contents (10_state.md R20, R21). -/
def State.reg (s : State) (r : Reg) : Word :=
  if h : r.toNat < 31 then s.regs[r.toNat] else 0

/-- `x[r] <- v`: a write of register 31 is discarded (10_state.md R21). -/
def State.setReg (s : State) (r : Reg) (v : Word) : State :=
  if h : r.toNat < 31 then { s with regs := s.regs.set r.toNat v } else s

/-- XP, the Exception Pointer, is general register 30 (10_state.md R22). -/
abbrev xp : Reg := 30

/-! The program counter -/

/-- `pc <- target`. -/
def State.setPc (s : State) (target : Word) : State := { s with pc := target }

/-- The Supervisor bit `pc[31]` as the current mode: true in supervisor mode (10_state.md R25, 60_exceptions.md R290). -/
def State.supervisor (s : State) : Bool := s.pc.getLsbD 31

/-- A PC from a Supervisor bit and 31 address bits. -/
def pcWord (sup : BitVec 1) (low : BitVec 31) : Word := sup ++ low

/-- `pc[31]` of a PC. -/
def pcSup (pc : Word) : BitVec 1 := pc.extractLsb' 31 1

/-- `pc[30:0]` of a PC. -/
def pcLow (pc : Word) : BitVec 31 := pc.extractLsb' 0 31

/-- `next(pc)`, the updated PC: 4 is added to bits 30:0 modulo 2^31 and bit 31 is kept (10_state.md R27; D11, log 21). -/
def nextPc (pc : Word) : Word := pcWord (pcSup pc) (pcLow pc + 4)

/-- `pc <- next(pc)`. -/
def State.advance (s : State) : State := s.setPc (nextPc s.pc)

/-- The end of every operate instruction and load: write `x[rc]`, advance the PC (40_arithmetic.md R118). -/
def State.writeAndAdvance (s : State) (rc : Reg) (v : Word) : State := (s.setReg rc v).advance

/-! Memory access -/

/-- The cell a byte address names: MEM_MAP may make `a + 2^31` another name of `a` (00_scope.md R13). -/
def cellOf (cfg : Config) (a : Word) : Nat :=
  if cfg.aliasBit31 then a.toNat % 2 ^ 31 else a.toNat

/-- The cell is backed by storage (00_scope.md R13). -/
def cellBacked (cfg : Config) (c : Nat) : Bool :=
  cfg.backed.any fun r => decide (r.base ≤ c) && decide (c < r.base + r.size)

/-- The four cells of a word are backed by storage (log 13). -/
def wordBacked (cfg : Config) (c : Nat) : Bool :=
  cellBacked cfg c && cellBacked cfg (c + 1) && cellBacked cfg (c + 2) && cellBacked cfg (c + 3)

/-- `addr[1:0] = 00`. -/
def isAligned (addr : Word) : Bool := addr.extractLsb' 0 2 == 0

/-- `{addr[31:2], 00}`. -/
def clearLowBits (addr : Word) : Word := addr &&& 0xFFFFFFFC

/-- The address a data access is made at, by MISALIGNED_POLICY (20_memory.md R56; log 15). -/
def alignData (cfg : Config) (ea : Word) : Except NoStorage Word :=
  if isAligned ea then .ok ea
  else
    match cfg.misaligned with
    | .refuse => .error .misaligned
    | .ignoreLowBits => .ok (clearLowBits ea)

/-- The first cell of the word at an aligned address, where it is backed (20_memory.md R53; D15, log 13). -/
def backedCell (cfg : Config) (addr : Word) : Except NoStorage Nat :=
  if wordBacked cfg (cellOf cfg addr) then .ok (cellOf cfg addr) else .error (.unbacked (BitVec.ofNat 30 (cellOf cfg addr / 4)))

/-- The first of the four cells a data access at `ea` reaches, or why it reaches none (20_memory.md R53, R54, R56). -/
def dataCell (cfg : Config) (ea : Word) : Except NoStorage Nat :=
  match alignData cfg ea with
  | .ok addr => backedCell cfg addr
  | .error r => .error r

/-- What PRIV_EXEC, SUPERVISOR_FAULT and MEM_MAP see of the machine (00_scope.md R11 to R13). -/
def State.view (s : State) : ArchView where
  reg := s.reg
  pc := s.pc
  word := fun i => Memory.readWord s.cfg.byteOrder s.mem (4 * i.toNat)
  pending := s.pending

/-- The state after the side effects of an access to an unbacked address: memory and the pending requests, no register and not the PC (log 13). -/
def State.afterAccess (s : State) (e : AccessEffect) : State :=
  { s with mem := Memory.writeWords s.cfg.byteOrder s.mem e.stores, pending := e.pending }

/-- What an access that reaches no storage does: a misaligned one has no meaning (20_memory.md R56), one to an unbacked address has the outcome of
MEM_MAP (20_memory.md R53, 00_scope.md R13; log 13). MEM_MAP sees the state the access is made from: in a fetch the PC is the instruction's
own, in a data access it is advanced (log 37). -/
def State.accessNoStorage (s : State) (access : Access) : NoStorage → Except Refusal AccessEffect
  | .misaligned => .error .misalignedAccess
  | .unbacked index =>
    match s.cfg.unbacked with
    | .refuse => .error .unbackedAccess
    | .implementation =>
      match Config.unbackedOutcome s.view access index with
      | none => .error .unbackedAccess
      | some e => .ok e

/-- The word read at a cell, or what MEM_MAP gives where there is none, and the state after the read: the same state, where storage is read. -/
def State.readCell (s : State) (cell : Except NoStorage Nat) : Except Refusal (Word × State) :=
  match cell with
  | .ok c => .ok (Memory.readWord s.cfg.byteOrder s.mem c, s)
  | .error n =>
    match s.accessNoStorage .read n with
    | .ok e => .ok (e.value, s.afterAccess e)
    | .error r => .error r

/-- `MemRead(ea, 4)` (20_memory.md R53, R56): the word, and the state after the read. -/
def State.memRead (s : State) (ea : Word) : Except Refusal (Word × State) := s.readCell (dataCell s.cfg ea)

/-- `MemWrite(ea, 4, v)` (20_memory.md R54, R56). -/
def State.memWrite (s : State) (ea : Word) (v : Word) : Except Refusal State :=
  match dataCell s.cfg ea with
  | .ok c => .ok { s with mem := Memory.writeWord s.cfg.byteOrder s.mem c v }
  | .error n =>
    match s.accessNoStorage (.write v) n with
    | .ok e => .ok (s.afterAccess e)
    | .error r => .error r

/-- The byte at cell `a`. -/
def State.byteAt (s : State) (a : Nat) : Byte := Memory.byte s.mem a

/-- The address an instruction is fetched from: bit 31 of the PC is taken as zero (20_memory.md R57, 10_state.md R25). -/
def fetchAddress (pc : Word) : Word := pc &&& 0x7FFFFFFF

/-- The instruction word at the PC, and the state after the read of it (20_memory.md R57). The fetch address is always
aligned in a run; where it is not, there is no meaning (log 28). -/
def State.fetch (s : State) : Except Refusal (Word × State) :=
  if isAligned (fetchAddress s.pc) then s.readCell (backedCell s.cfg (fetchAddress s.pc)) else .error .misalignedFetch

/-! Exceptions -/

/-- A vector: bits 31, 1 and 0 are 0 (00_scope.md R9; D8, log 7). -/
def vectorWord (v : VectorIndex) : Word := (0 : BitVec 1) ++ v ++ (0 : BitVec 2)

/-- VEC_IRQ: the vector of an interrupt source, where the machine has that source (00_scope.md R9, R10; log 8). -/
def vecIrq (cfg : Config) (q : IrqSource) : Option VectorIndex :=
  (cfg.irqVectors.find? fun entry => entry.1 == q).map Prod.snd

/-- Exception entry from user mode: XP receives the updated PC, the Supervisor bit is set, bits 30:0 of the PC are the vector's; nothing
else is written (60_exceptions.md R283, R284). -/
def State.enterException (s : State) (v : VectorIndex) : State :=
  (s.setReg xp (nextPc s.pc)).setPc (pcWord 1 (pcLow (vectorWord v)))

/-- The next state PRIV_EXEC or SUPERVISOR_FAULT gives: the Supervisor bit is kept (10_state.md R29), bits 1:0 of the PC are 0 (R26), the
configuration and the inputs to come are no business of theirs (R36; log 11). -/
def State.applyEffect (s : State) (e : ArchEffect) : State :=
  { s with
    regs := e.regs
    pc := pcWord (pcSup s.pc) (e.pcIndex ++ (0 : BitVec 2))
    mem := Memory.writeWords s.cfg.byteOrder s.mem e.stores
    pending := e.pending }

/-- The outcome PRIV_EXEC or SUPERVISOR_FAULT gives, its stops under the names given. -/
def State.paramOutcome (s : State) (outcome : ParamOutcome) (fault : Fault) (refusal : Refusal) : Result :=
  match outcome with
  | .fault => .fault fault
  | .refuse => .refused refusal
  | .effect e => .next (s.applyEffect e)

/-- `SUPERVISOR_FAULT(state)`: what a trap or fault in supervisor mode does (00_scope.md R12, 46_privileged_illegal.md R234, 60_exceptions.md
R285; D9, log 12). -/
def State.supervisorFault (s : State) : Result :=
  match s.cfg.supervisorFault with
  | .fault => .fault .supervisorFault
  | .implementation => s.paramOutcome (Config.supervisorFaultOutcome s.view) .supervisorFault .supervisorFaultUndefined

/-- `raise IllegalInstruction`: exception entry with VEC_ILLOP in user mode (46_privileged_illegal.md R232), SUPERVISOR_FAULT in supervisor
mode (R234). -/
def State.raiseIllegal (s : State) : Result :=
  if s.supervisor then s.supervisorFault else .next (s.enterException s.cfg.vecIllop)

/-- The PC after JMP through a register holding `x`, which is also the return from an exception: `{pc[31] & x[31], x[30:2], 00}`
(44_branch_jump.md R193, 60_exceptions.md R286). -/
def jumpPc (pc x : Word) : Word :=
  pcWord (pcSup pc &&& pcSup (clearLowBits x)) (pcLow (clearLowBits x))

/-! The instruction boundary -/

/-- Sample the environment's next input: the requests now pending, and its choice. Where no input is left, the pending requests stay and none
is taken (00_scope.md R10, 60_exceptions.md R275; log 9). DESIGN CHOICE: the input alone says what is pending at the boundary, so a request that an
effect of PRIV_EXEC, SUPERVISOR_FAULT or MEM_MAP raised or withdrew stays so only until the next input (log 38). -/
def State.sample (s : State) : State × Option IrqSource :=
  match s.env with
  | [] => (s, none)
  | b :: rest => ({ s with pending := b.pending, env := rest }, b.take)

/-- The vector of the interrupt taken at this boundary: in user mode, the source chosen, where it is pending and the machine has it
(60_exceptions.md R274, R276, R277). -/
def State.interruptTaken (s : State) (choice : Option IrqSource) : Option VectorIndex :=
  match choice with
  | some q => if !s.supervisor && s.pending.contains q then vecIrq s.cfg q else none
  | none => none

/-- Store the word `w` where the next fetch reads it, byte by byte in the machine's byte order. -/
def State.placeWord (s : State) (w : Word) : State :=
  { s with mem := Memory.writeWord s.cfg.byteOrder s.mem (cellOf s.cfg (fetchAddress s.pc)) w }

/-- Let no interrupt be taken at the next boundary. -/
def State.declineInterrupt (s : State) : State :=
  match s.env with
  | [] => s
  | b :: rest => { s with env := { b with take := none } :: rest }

end Sys2Proof.Machine
end

