-- ==== Sys2Proof/Machine/Operands.lean ====
section
/-! DEFINITION. The operand forms: sign-extended literals, shift counts, effective addresses and branch targets (spec/30_encoding.md R84 to
R86, 44_branch_jump.md R190, 45_load_store.md R213). -/

namespace Sys2Proof.Machine

/-- `sext_32(lit)` (30_encoding.md R84). -/
def sext32 (lit : Literal) : Word := lit.signExtend 32

/-- `signed(v)`: the two's-complement reading of a word (00_scope.md R15). -/
def signed (v : Word) : Int := v.toInt

/-- The byte offset of a word offset: `4*signed(sext_32(lit))` (30_encoding.md R85). -/
def byteOffset (lit : Literal) : Int := 4 * signed (sext32 lit)

/-- The five-bit count of a shift by a register (30_encoding.md R86). -/
def countOfWord (v : Word) : Nat := (v.extractLsb' 0 5).toNat

/-- The five-bit count of a shift by a literal (30_encoding.md R86). -/
def countOfLiteral (lit : Literal) : Nat := (lit.extractLsb' 0 5).toNat

/-- The address of LD and ST: `x[ra] + sext_32(lit)` modulo 2^32 (45_load_store.md R210, R212). -/
def State.baseAddress (s : State) (ra : Reg) (lit : Literal) : Word := s.reg ra + sext32 lit

/-- The address of LDR: bit 31 of the updated PC is taken as zero, the sum is modulo 2^32 (45_load_store.md R211; D12, log 22). -/
def relativeAddress (pcn : Word) (lit : Literal) : Word :=
  BitVec.ofInt 32 ((pcLow pcn).toNat + byteOffset lit)

/-- `btarget(pcn, lit)`: the sum is on bits 30:0 modulo 2^31, bit 31 is kept (44_branch_jump.md R190; D11, log 21). -/
def branchTarget (pcn : Word) (lit : Literal) : Word :=
  pcWord (pcSup pcn) (BitVec.ofInt 31 ((pcLow pcn).toNat + byteOffset lit))

end Sys2Proof.Machine
end

