-- ==== Sys2Proof/Machine/Alu.lean ====
section
/-! DEFINITION. The functions the operate instructions compute, each shared by a register form and its literal form. -/

namespace Sys2Proof.Machine

/-- The common execution of an operate instruction: write the result to `x[rc]` and advance (40_arithmetic.md R118). -/
def State.operate (s : State) (rc : Reg) (result : Word) : Result := .next (s.writeAndAdvance rc result)

/-- An optional instruction: where the machine lacks it, its opcode is unassigned (00_scope.md R8, 30_encoding.md R95). There the decoder yields
illegal and no step comes here; the meaning on its own answers alike (log 26). -/
def State.optional (s : State) (meaning : Result) : Result :=
  if s.cfg.hasMulDiv then meaning else s.raiseIllegal

/-- The 32-bit sum (40_arithmetic.md R110, R111). -/
def sumWord (a b : Word) : Word := a + b

/-- The 32-bit difference (40_arithmetic.md R112, R113). -/
def differenceWord (a b : Word) : Word := a - b

/-- The low-order 32 bits of the product (40_arithmetic.md R114, R115). -/
def productWord (a b : Word) : Word := a * b

/-- The low-order 32 bits of the signed quotient rounded toward zero; for a zero divisor a free value of the dividend (40_arithmetic.md R116,
R117, R119; D4, log 17; D5, log 16). -/
def quotientWord (a b : Word) : Word :=
  if signed b = 0 then Config.divByZero a else BitVec.ofInt 32 ((signed a).tdiv (signed b))

/-- Bitwise AND (41_logical.md R130, R131). -/
def andWord (a b : Word) : Word := a &&& b

/-- Bitwise OR (41_logical.md R132, R133). -/
def orWord (a b : Word) : Word := a ||| b

/-- Bitwise XOR (41_logical.md R134, R135). -/
def xorWord (a b : Word) : Word := a ^^^ b

/-- Bitwise XNOR, all 32 bits of the XOR complemented (41_logical.md R136, R137). -/
def xnorWord (a b : Word) : Word := ~~~(a ^^^ b)

/-- Left shift, zeros entering at bit 0 (43_shift.md R170, R171). -/
def shiftLeft (a : Word) (n : Nat) : Word := a <<< n

/-- Logical right shift, zeros entering at bit 31 (43_shift.md R172, R173). -/
def shiftRight (a : Word) (n : Nat) : Word := a >>> n

/-- Arithmetic right shift, copies of bit 31 entering at bit 31 (43_shift.md R174, R175). -/
def shiftRightArith (a : Word) (n : Nat) : Word := a.sshiftRight n

end Sys2Proof.Machine
end

