-- ==== Sys2Proof/Machine/Arithmetic.lean ====
section
/-! DEFINITION. The arithmetic instructions (spec/40_arithmetic.md). All reads precede the write (R118). -/

namespace Sys2Proof.Machine

/-- ADD (40_arithmetic.md R110). -/
def execAdd (rc ra rb : Reg) (s : State) : Result :=
  s.operate rc (sumWord (s.reg ra) (s.reg rb))

/-- ADDC (40_arithmetic.md R111). -/
def execAddc (rc ra : Reg) (lit : Literal) (s : State) : Result :=
  s.operate rc (sumWord (s.reg ra) (sext32 lit))

/-- SUB (40_arithmetic.md R112). -/
def execSub (rc ra rb : Reg) (s : State) : Result :=
  s.operate rc (differenceWord (s.reg ra) (s.reg rb))

/-- SUBC (40_arithmetic.md R113). -/
def execSubc (rc ra : Reg) (lit : Literal) (s : State) : Result :=
  s.operate rc (differenceWord (s.reg ra) (sext32 lit))

/-- MUL, optional (40_arithmetic.md R114). -/
def execMul (rc ra rb : Reg) (s : State) : Result :=
  s.optional (s.operate rc (productWord (s.reg ra) (s.reg rb)))

/-- MULC, optional (40_arithmetic.md R115). -/
def execMulc (rc ra : Reg) (lit : Literal) (s : State) : Result :=
  s.optional (s.operate rc (productWord (s.reg ra) (sext32 lit)))

/-- DIV, optional (40_arithmetic.md R116). -/
def execDiv (rc ra rb : Reg) (s : State) : Result :=
  s.optional (s.operate rc (quotientWord (s.reg ra) (s.reg rb)))

/-- DIVC, optional (40_arithmetic.md R117). -/
def execDivc (rc ra : Reg) (lit : Literal) (s : State) : Result :=
  s.optional (s.operate rc (quotientWord (s.reg ra) (sext32 lit)))

end Sys2Proof.Machine
end

