-- ==== Sys2Proof/Machine/Branch.lean ====
section
/-! DEFINITION. The control transfers BEQ, BNE and JMP (spec/44_branch_jump.md). The tested or target register is read before the link is written. -/

namespace Sys2Proof.Machine

/-- The shared shape of BEQ and BNE: link all 32 bits of the updated PC whether taken or not, then go to the target or on (R191, R192, R195). -/
def State.branch (s : State) (taken : Bool) (rc : Reg) (lit : Literal) : Result :=
  .next ((s.setReg rc (nextPc s.pc)).setPc (if taken then branchTarget (nextPc s.pc) lit else nextPc s.pc))

/-- BEQ, alias BF (44_branch_jump.md R191). -/
def execBeq (rc ra : Reg) (lit : Literal) (s : State) : Result :=
  s.branch (s.reg ra == 0) rc lit

/-- BNE, alias BT (44_branch_jump.md R192). -/
def execBne (rc ra : Reg) (lit : Literal) (s : State) : Result :=
  s.branch (s.reg ra != 0) rc lit

/-- JMP (44_branch_jump.md R193): the return from an exception handler as well (60_exceptions.md R286). -/
def execJmp (rc ra : Reg) (s : State) : Result :=
  .next ((s.setReg rc (nextPc s.pc)).setPc (jumpPc s.pc (s.reg ra)))

end Sys2Proof.Machine
end

