-- ==== Sys2Proof/Machine/Flags.lean ====
section
/-! DEFINITION. The β has no flags and no condition codes (spec/10_state.md R30). What stands in their place is the word 1 or 0 that a compare
writes to a general register (42_compare.md). -/

namespace Sys2Proof.Machine

/-- "[result = 1 if true, 0 if false]" (42_compare.md). -/
def truthWord (b : Bool) : Word := if b then 1 else 0

/-- Equality of all 32 bits (42_compare.md R150, R151). -/
def compareEq (a b : Word) : Word := truthWord (a == b)

/-- Signed less-than (42_compare.md R152, R153, R156; D3, log 18). -/
def compareLt (a b : Word) : Word := truthWord (decide (signed a < signed b))

/-- Signed less-than-or-equal (42_compare.md R154, R155, R156; D3, log 18). -/
def compareLe (a b : Word) : Word := truthWord (decide (signed a ≤ signed b))

end Sys2Proof.Machine
end

