-- ==== Sys2Proof/Machine/Compare.lean ====
section
/-! DEFINITION. The compare instructions (spec/42_compare.md). -/

namespace Sys2Proof.Machine

/-- CMPEQ (42_compare.md R150). -/
def execCmpeq (rc ra rb : Reg) (s : State) : Result :=
  s.operate rc (compareEq (s.reg ra) (s.reg rb))

/-- CMPEQC (42_compare.md R151). -/
def execCmpeqc (rc ra : Reg) (lit : Literal) (s : State) : Result :=
  s.operate rc (compareEq (s.reg ra) (sext32 lit))

/-- CMPLT (42_compare.md R152). -/
def execCmplt (rc ra rb : Reg) (s : State) : Result :=
  s.operate rc (compareLt (s.reg ra) (s.reg rb))

/-- CMPLTC (42_compare.md R153). -/
def execCmpltc (rc ra : Reg) (lit : Literal) (s : State) : Result :=
  s.operate rc (compareLt (s.reg ra) (sext32 lit))

/-- CMPLE (42_compare.md R154). -/
def execCmple (rc ra rb : Reg) (s : State) : Result :=
  s.operate rc (compareLe (s.reg ra) (s.reg rb))

/-- CMPLEC (42_compare.md R155). -/
def execCmplec (rc ra : Reg) (lit : Literal) (s : State) : Result :=
  s.operate rc (compareLe (s.reg ra) (sext32 lit))

end Sys2Proof.Machine
end

