-- ==== Sys2Proof/Machine/LoadStore.lean ====
section
/-! DEFINITION. The loads and the store (spec/45_load_store.md). As their rules have it, the PC advances before the access, so the access is made
from the state with the PC advanced (log 37). -/

namespace Sys2Proof.Machine

/-- The shared shape of the loads: advance, then write the word read to `x[rc]` in the state after the read, or say why nothing was read (R210,
R211). -/
def State.load (s : State) (rc : Reg) (ea : Word) : Result :=
  match s.advance.memRead ea with
  | .ok (v, t) => .next (t.setReg rc v)
  | .error r => .refused r

/-- LD (45_load_store.md R210). -/
def execLd (rc ra : Reg) (lit : Literal) (s : State) : Result :=
  s.load rc (s.baseAddress ra lit)

/-- LDR (45_load_store.md R211); its Ra field takes no part (30_encoding.md R92). -/
def execLdr (rc : Reg) (lit : Literal) (s : State) : Result :=
  s.load rc (relativeAddress (nextPc s.pc) lit)

/-- ST (45_load_store.md R212): advance, then store the word `x[rc]`. -/
def execSt (rc ra : Reg) (lit : Literal) (s : State) : Result :=
  match s.advance.memWrite (s.baseAddress ra lit) (s.reg rc) with
  | .ok t => .next t
  | .error r => .refused r

end Sys2Proof.Machine
end

