-- ==== Sys2Proof/Machine/Logical.lean ====
section
/-! DEFINITION. The logical instructions (spec/41_logical.md). -/

namespace Sys2Proof.Machine

/-- AND (41_logical.md R130). -/
def execAnd (rc ra rb : Reg) (s : State) : Result :=
  s.operate rc (andWord (s.reg ra) (s.reg rb))

/-- ANDC (41_logical.md R131); the literal is sign-extended. -/
def execAndc (rc ra : Reg) (lit : Literal) (s : State) : Result :=
  s.operate rc (andWord (s.reg ra) (sext32 lit))

/-- OR (41_logical.md R132). -/
def execOr (rc ra rb : Reg) (s : State) : Result :=
  s.operate rc (orWord (s.reg ra) (s.reg rb))

/-- ORC (41_logical.md R133); the literal is sign-extended. -/
def execOrc (rc ra : Reg) (lit : Literal) (s : State) : Result :=
  s.operate rc (orWord (s.reg ra) (sext32 lit))

/-- XOR (41_logical.md R134). -/
def execXor (rc ra rb : Reg) (s : State) : Result :=
  s.operate rc (xorWord (s.reg ra) (s.reg rb))

/-- XORC (41_logical.md R135); the literal is sign-extended. -/
def execXorc (rc ra : Reg) (lit : Literal) (s : State) : Result :=
  s.operate rc (xorWord (s.reg ra) (sext32 lit))

/-- XNOR (41_logical.md R136). -/
def execXnor (rc ra rb : Reg) (s : State) : Result :=
  s.operate rc (xnorWord (s.reg ra) (s.reg rb))

/-- XNORC (41_logical.md R137); the literal is sign-extended. -/
def execXnorc (rc ra : Reg) (lit : Literal) (s : State) : Result :=
  s.operate rc (xnorWord (s.reg ra) (sext32 lit))

end Sys2Proof.Machine
end

