-- ==== Sys2Proof/Machine/Privileged.lean ====
section
/-! DEFINITION. The privileged opcode 0x00 (spec/46_privileged_illegal.md). -/

namespace Sys2Proof.Machine

/-- `PRIV_EXEC(state, iw)` (00_scope.md R11, R230; D10, log 11): a word for which the implementation defines no instruction is an illegal
instruction in supervisor mode (R234). -/
def State.privExec (s : State) (iw : Word) : Result :=
  match s.cfg.privExec with
  | .refuse => .refused .privilegedUndefined
  | .noInstruction => s.raiseIllegal
  | .implementation =>
    match Config.privExecOutcome s.view iw with
    | none => s.raiseIllegal
    | some outcome => s.paramOutcome outcome .privilegedFault .privilegedUndefined

/-- Any word of opcode 0x00: PRIV_EXEC of the state and the word in supervisor mode (R230), IllegalInstruction in user mode (R231). -/
def execPriv (body : BitVec 26) (s : State) : Result :=
  if s.supervisor then s.privExec (encode (.priv body)) else s.raiseIllegal

end Sys2Proof.Machine
end

