-- ==== Sys2Proof/Machine/Shift.lean ====
section
/-! DEFINITION. The shift instructions (spec/43_shift.md). -/

namespace Sys2Proof.Machine

/-- SHL (43_shift.md R170); only bits 4:0 of the count register count. -/
def execShl (rc ra rb : Reg) (s : State) : Result :=
  s.operate rc (shiftLeft (s.reg ra) (countOfWord (s.reg rb)))

/-- SHLC (43_shift.md R171); only bits 4:0 of the literal count. -/
def execShlc (rc ra : Reg) (lit : Literal) (s : State) : Result :=
  s.operate rc (shiftLeft (s.reg ra) (countOfLiteral lit))

/-- SHR (43_shift.md R172); only bits 4:0 of the count register count. -/
def execShr (rc ra rb : Reg) (s : State) : Result :=
  s.operate rc (shiftRight (s.reg ra) (countOfWord (s.reg rb)))

/-- SHRC (43_shift.md R173); only bits 4:0 of the literal count. -/
def execShrc (rc ra : Reg) (lit : Literal) (s : State) : Result :=
  s.operate rc (shiftRight (s.reg ra) (countOfLiteral lit))

/-- SRA (43_shift.md R174); only bits 4:0 of the count register count. -/
def execSra (rc ra rb : Reg) (s : State) : Result :=
  s.operate rc (shiftRightArith (s.reg ra) (countOfWord (s.reg rb)))

/-- SRAC (43_shift.md R175); only bits 4:0 of the literal count. -/
def execSrac (rc ra : Reg) (lit : Literal) (s : State) : Result :=
  s.operate rc (shiftRightArith (s.reg ra) (countOfLiteral lit))

end Sys2Proof.Machine
end

