-- ==== Sys2Proof/Machine/Dispatch.lean ====
section
/-! DEFINITION. The meaning of each instruction, one arm per constructor. A pattern's underscore is an idle field, which has no effect
(spec/30_encoding.md R90, R91, R92). -/

namespace Sys2Proof.Machine

def exec (i : Instr) (s : State) : Host.Outcome State Fault Refusal :=
  match i with
  | .priv body => Sys2Proof.Machine.execPriv body s
  | .ld rc ra lit => Sys2Proof.Machine.execLd rc ra lit s
  | .st rc ra lit => Sys2Proof.Machine.execSt rc ra lit s
  | .jmp rc ra _ => Sys2Proof.Machine.execJmp rc ra s
  | .beq rc ra lit => Sys2Proof.Machine.execBeq rc ra lit s
  | .bne rc ra lit => Sys2Proof.Machine.execBne rc ra lit s
  | .ldr rc _ lit => Sys2Proof.Machine.execLdr rc lit s
  | .add rc ra rb _ => Sys2Proof.Machine.execAdd rc ra rb s
  | .sub rc ra rb _ => Sys2Proof.Machine.execSub rc ra rb s
  | .mul rc ra rb _ => Sys2Proof.Machine.execMul rc ra rb s
  | .div rc ra rb _ => Sys2Proof.Machine.execDiv rc ra rb s
  | .cmpeq rc ra rb _ => Sys2Proof.Machine.execCmpeq rc ra rb s
  | .cmplt rc ra rb _ => Sys2Proof.Machine.execCmplt rc ra rb s
  | .cmple rc ra rb _ => Sys2Proof.Machine.execCmple rc ra rb s
  | .and rc ra rb _ => Sys2Proof.Machine.execAnd rc ra rb s
  | .or rc ra rb _ => Sys2Proof.Machine.execOr rc ra rb s
  | .xor rc ra rb _ => Sys2Proof.Machine.execXor rc ra rb s
  | .xnor rc ra rb _ => Sys2Proof.Machine.execXnor rc ra rb s
  | .shl rc ra rb _ => Sys2Proof.Machine.execShl rc ra rb s
  | .shr rc ra rb _ => Sys2Proof.Machine.execShr rc ra rb s
  | .sra rc ra rb _ => Sys2Proof.Machine.execSra rc ra rb s
  | .addc rc ra lit => Sys2Proof.Machine.execAddc rc ra lit s
  | .subc rc ra lit => Sys2Proof.Machine.execSubc rc ra lit s
  | .mulc rc ra lit => Sys2Proof.Machine.execMulc rc ra lit s
  | .divc rc ra lit => Sys2Proof.Machine.execDivc rc ra lit s
  | .cmpeqc rc ra lit => Sys2Proof.Machine.execCmpeqc rc ra lit s
  | .cmpltc rc ra lit => Sys2Proof.Machine.execCmpltc rc ra lit s
  | .cmplec rc ra lit => Sys2Proof.Machine.execCmplec rc ra lit s
  | .andc rc ra lit => Sys2Proof.Machine.execAndc rc ra lit s
  | .orc rc ra lit => Sys2Proof.Machine.execOrc rc ra lit s
  | .xorc rc ra lit => Sys2Proof.Machine.execXorc rc ra lit s
  | .xnorc rc ra lit => Sys2Proof.Machine.execXnorc rc ra lit s
  | .shlc rc ra lit => Sys2Proof.Machine.execShlc rc ra lit s
  | .shrc rc ra lit => Sys2Proof.Machine.execShrc rc ra lit s
  | .srac rc ra lit => Sys2Proof.Machine.execSrac rc ra lit s

end Sys2Proof.Machine
end

