-- ==== Sys2Proof/Machine/Step.lean ====
section
/-! DEFINITION. One step of the processor (spec/60_exceptions.md R296), and the host's way of placing an instruction to be fetched. -/

namespace Sys2Proof.Machine

/-- Fetch, decode and execute one instruction, from the state after the fetch (R296, without the interrupt check): an unassigned opcode raises
IllegalInstruction (46_privileged_illegal.md R233). -/
def runInstruction (s : State) : Result :=
  match s.fetch with
  | .error r => .refused r
  | .ok (iw, t) =>
    match decodeWord s.cfg.hasMulDiv iw with
    | .ok i => exec i t
    | .error _ => t.raiseIllegal

/-- What happens at a boundary once the environment's input is sampled: an interrupt in place of the instruction, or the instruction (R276). -/
def stepWith (s : State) (choice : Option IrqSource) : Result :=
  match s.interruptTaken choice with
  | some v => .next (s.enterException v)
  | none => runInstruction s

/-- One step of the processor (R296). -/
def step (s : State) : Host.Outcome State Fault Refusal :=
  stepWith s.sample.1 s.sample.2

/-- The state with the word whose low `nbits` bits are those of `w` stored where the next step fetches, in the machine's byte order, and with
no interrupt taken at that boundary, so that the step runs the word (log 29). -/
def State.withFetchWord (s : State) (nbits w : Nat) : State :=
  (s.placeWord (BitVec.ofNat 32 (w % 2 ^ nbits))).declineInterrupt

end Sys2Proof.Machine
end

