-- ==== Sys2Proof/Machine/Assembler.lean ====
section
/-! DEFINITION. The assembler level (spec/30_encoding.md R98 to R101, 47_macros_conventions.md R240 to R262): operands in the order of the
manual's Usage lines, aliases, literals computed from labels, the macros, and the calling convention. No hardware rule depends on it. A label
is its byte address, OFFSET(label). -/

namespace Sys2Proof.Asm

/-! Register symbols (47_macros_conventions.md R255; log 30) -/

/-- The exception pointer, R30. -/
abbrev XP : Reg := 30
/-- The stack pointer, R29. -/
abbrev SP : Reg := 29
/-- The linkage pointer, R28. -/
abbrev LP : Reg := 28
/-- The base pointer, R27. -/
abbrev BP : Reg := 27

/-! Usage lines (30_encoding.md R98): sources first, destination last; idle fields as an assembler writes them (R90, R91, R92) -/

/-- `ADD(Ra,Rb,Rc)` -/
def add (ra rb rc : Reg) : Instr := .add rc ra rb 0
/-- `SUB(Ra,Rb,Rc)` -/
def sub (ra rb rc : Reg) : Instr := .sub rc ra rb 0
/-- `MUL(Ra,Rb,Rc)` -/
def mul (ra rb rc : Reg) : Instr := .mul rc ra rb 0
/-- `DIV(Ra,Rb,Rc)` -/
def div (ra rb rc : Reg) : Instr := .div rc ra rb 0
/-- `CMPEQ(Ra,Rb,Rc)` -/
def cmpeq (ra rb rc : Reg) : Instr := .cmpeq rc ra rb 0
/-- `CMPLT(Ra,Rb,Rc)` -/
def cmplt (ra rb rc : Reg) : Instr := .cmplt rc ra rb 0
/-- `CMPLE(Ra,Rb,Rc)` -/
def cmple (ra rb rc : Reg) : Instr := .cmple rc ra rb 0
/-- `AND(Ra,Rb,Rc)` -/
def and (ra rb rc : Reg) : Instr := .and rc ra rb 0
/-- `OR(Ra,Rb,Rc)` -/
def or (ra rb rc : Reg) : Instr := .or rc ra rb 0
/-- `XOR(Ra,Rb,Rc)` -/
def xor (ra rb rc : Reg) : Instr := .xor rc ra rb 0
/-- `XNOR(Ra,Rb,Rc)` -/
def xnor (ra rb rc : Reg) : Instr := .xnor rc ra rb 0
/-- `SHL(Ra,Rb,Rc)` -/
def shl (ra rb rc : Reg) : Instr := .shl rc ra rb 0
/-- `SHR(Ra,Rb,Rc)` -/
def shr (ra rb rc : Reg) : Instr := .shr rc ra rb 0
/-- `SRA(Ra,Rb,Rc)` -/
def sra (ra rb rc : Reg) : Instr := .sra rc ra rb 0
/-- `ADDC(Ra,literal,Rc)` -/
def addc (ra : Reg) (lit : Literal) (rc : Reg) : Instr := .addc rc ra lit
/-- `SUBC(Ra,literal,Rc)` -/
def subc (ra : Reg) (lit : Literal) (rc : Reg) : Instr := .subc rc ra lit
/-- `MULC(Ra,literal,Rc)` -/
def mulc (ra : Reg) (lit : Literal) (rc : Reg) : Instr := .mulc rc ra lit
/-- `DIVC(Ra,literal,Rc)` -/
def divc (ra : Reg) (lit : Literal) (rc : Reg) : Instr := .divc rc ra lit
/-- `CMPEQC(Ra,literal,Rc)` -/
def cmpeqc (ra : Reg) (lit : Literal) (rc : Reg) : Instr := .cmpeqc rc ra lit
/-- `CMPLTC(Ra,literal,Rc)` -/
def cmpltc (ra : Reg) (lit : Literal) (rc : Reg) : Instr := .cmpltc rc ra lit
/-- `CMPLEC(Ra,literal,Rc)` -/
def cmplec (ra : Reg) (lit : Literal) (rc : Reg) : Instr := .cmplec rc ra lit
/-- `ANDC(Ra,literal,Rc)` -/
def andc (ra : Reg) (lit : Literal) (rc : Reg) : Instr := .andc rc ra lit
/-- `ORC(Ra,literal,Rc)` -/
def orc (ra : Reg) (lit : Literal) (rc : Reg) : Instr := .orc rc ra lit
/-- `XORC(Ra,literal,Rc)` -/
def xorc (ra : Reg) (lit : Literal) (rc : Reg) : Instr := .xorc rc ra lit
/-- `XNORC(Ra,literal,Rc)` -/
def xnorc (ra : Reg) (lit : Literal) (rc : Reg) : Instr := .xnorc rc ra lit
/-- `SHLC(Ra,literal,Rc)` -/
def shlc (ra : Reg) (lit : Literal) (rc : Reg) : Instr := .shlc rc ra lit
/-- `SHRC(Ra,literal,Rc)` -/
def shrc (ra : Reg) (lit : Literal) (rc : Reg) : Instr := .shrc rc ra lit
/-- `SRAC(Ra,literal,Rc)` -/
def srac (ra : Reg) (lit : Literal) (rc : Reg) : Instr := .srac rc ra lit
/-- `LD(Ra,literal,Rc)` -/
def ld (ra : Reg) (lit : Literal) (rc : Reg) : Instr := .ld rc ra lit
/-- `ST(Rc,literal,Ra)`: the first operand is the register stored, the last the base. -/
def st (rc : Reg) (lit : Literal) (ra : Reg) : Instr := .st rc ra lit
/-- `JMP(Ra,Rc)` -/
def jmp (ra rc : Reg) : Instr := .jmp rc ra 0
/-- `BEQ(Ra,label,Rc)` with the label's literal -/
def beq (ra : Reg) (lit : Literal) (rc : Reg) : Instr := .beq rc ra lit
/-- `BNE(Ra,label,Rc)` with the label's literal -/
def bne (ra : Reg) (lit : Literal) (rc : Reg) : Instr := .bne rc ra lit
/-- `BF(Ra,label,Rc)` assembles as BEQ (R99). -/
def bf (ra : Reg) (lit : Literal) (rc : Reg) : Instr := beq ra lit rc
/-- `BT(Ra,label,Rc)` assembles as BNE (R99). -/
def bt (ra : Reg) (lit : Literal) (rc : Reg) : Instr := bne ra lit rc
/-- `LDR(label,Rc)` with the label's literal; the Ra field is assembled as 31 (R92). -/
def ldr (lit : Literal) (rc : Reg) : Instr := .ldr rc 31 lit

/-! Literals -/

/-- A number as a literal; an assembler rejects one outside -32768 to 32767 (30_encoding.md R84, R101). -/
def literal? (n : Int) : Option Literal :=
  if -32768 ≤ n ∧ n ≤ 32767 then some (BitVec.ofInt 16 n) else none

/-- The literal of BEQ, BNE and LDR at address `here` for a label: `((OFFSET(label) - OFFSET(here)) / 4) - 1` (30_encoding.md R100); a label
out of range is rejected (R101), and so is one that no word offset reaches (log 33). -/
def branchLiteral? (here label : Int) : Option Literal :=
  if (label - here) % 4 = 0 then literal? ((label - here) / 4 - 1) else none

/-- The literal of an absolute address, which must be a sign-extended 16-bit value (47_macros_conventions.md R247, R248). -/
def absoluteLiteral? (label : Word) : Option Literal :=
  if Machine.sext32 (label.extractLsb' 0 16) = label then some (label.extractLsb' 0 16) else none

/-! Macros -/

/-- The fourteen macros of the manual's table, those that share a name with an instruction told apart by their operand count. -/
inductive Macro where
  /-- `BEQ(Ra,label)` (R240) -/
  | beq (ra : Reg) (label : Int)
  /-- `BF(Ra,label)` (R241) -/
  | bf (ra : Reg) (label : Int)
  /-- `BNE(Ra,label)` (R242) -/
  | bne (ra : Reg) (label : Int)
  /-- `BT(Ra,label)` (R243) -/
  | bt (ra : Reg) (label : Int)
  /-- `BR(label,Rc)` (R244) -/
  | brLink (label : Int) (rc : Reg)
  /-- `BR(label)` (R245) -/
  | br (label : Int)
  /-- `JMP(Ra)` (R246) -/
  | jmp (ra : Reg)
  /-- `LD(label,Rc)` (R247) -/
  | ld (label : Word) (rc : Reg)
  /-- `ST(Rc,label)` (R248) -/
  | st (rc : Reg) (label : Word)
  /-- `MOVE(Ra,Rc)` (R249) -/
  | move (ra rc : Reg)
  /-- `CMOVE(c,Rc)` (R250) -/
  | cmove (c : Int) (rc : Reg)
  /-- `PUSH(Ra)` (R251) -/
  | push (ra : Reg)
  /-- `POP(Rc)` (R252) -/
  | pop (rc : Reg)
  /-- `ALLOCATE(k)` (R253) -/
  | allocate (k : Nat)
  /-- `DEALLOCATE(k)` (R254) -/
  | deallocate (k : Nat)
deriving DecidableEq, Repr

/-- `PUSH(Ra)`: `ADDC(SP,4,SP)` then `ST(Ra,-4,SP)` (47_macros_conventions.md R251; log 30). -/
def pushCode (ra : Reg) : List Instr := [addc SP 4 SP, st ra (-4) SP]

/-- `POP(Rc)`: `LD(SP,-4,Rc)` then `SUBC(SP,4,SP)` (47_macros_conventions.md R252; log 30). -/
def popCode (rc : Reg) : List Instr := [ld SP (-4) rc, subc SP 4 SP]

/-- The instructions of a macro assembled at address `here`, or `none` where an operand does not fit (47_macros_conventions.md R240 to R254). -/
def Macro.expand (here : Int) : Macro → Option (List Instr)
  | .beq ra label => (branchLiteral? here label).map fun lit => [Asm.beq ra lit 31]
  | .bf ra label => (branchLiteral? here label).map fun lit => [Asm.bf ra lit 31]
  | .bne ra label => (branchLiteral? here label).map fun lit => [Asm.bne ra lit 31]
  | .bt ra label => (branchLiteral? here label).map fun lit => [Asm.bt ra lit 31]
  | .brLink label rc => (branchLiteral? here label).map fun lit => [Asm.beq 31 lit rc]
  | .br label => (branchLiteral? here label).map fun lit => [Asm.beq 31 lit 31]
  | .jmp ra => some [Asm.jmp ra 31]
  | .ld label rc => (absoluteLiteral? label).map fun lit => [Asm.ld 31 lit rc]
  | .st rc label => (absoluteLiteral? label).map fun lit => [Asm.st rc lit 31]
  | .move ra rc => some [add ra 31 rc]
  | .cmove c rc => (literal? c).map fun lit => [addc 31 lit rc]
  | .push ra => some (pushCode ra)
  | .pop rc => some (popCode rc)
  | .allocate k => (literal? (4 * k)).map fun lit => [addc SP lit SP]
  | .deallocate k => (literal? (4 * k)).map fun lit => [subc SP lit SP]

/-- A sequence of macros assembled from address `here` up, four bytes an instruction (30_encoding.md R80). -/
def assemble (here : Int) : List Macro → Option (List Instr)
  | [] => some []
  | m :: rest =>
    match m.expand here with
    | none => none
    | some code => (assemble (here + 4 * code.length) rest).map fun tail => code ++ tail

/-! The calling convention -/

/-- A call of the procedure at `f` with its arguments in registers, the first one first: pushed last to first, then `BR(F,LP)` and
`DEALLOCATE(n)` (47_macros_conventions.md R257, R258). -/
def callSequence (f : Int) (args : List Reg) : List Macro :=
  args.reverse.map Macro.push ++ [.brLink f LP, .deallocate args.length]

/-- The standard prologue for `k` words of locals and the registers saved (47_macros_conventions.md R259). The rule lets ALLOCATE be omitted with no
locals and does not require it: DESIGN CHOICE, omitted (log 35). -/
def prologue (k : Nat) (saved : List Reg) : List Macro :=
  [.push LP, .push BP, .move SP BP] ++ (if k = 0 then [] else [.allocate k]) ++ saved.map Macro.push

/-- The standard epilogue (47_macros_conventions.md R260). The rule lets `MOVE(BP,SP)` be omitted with no locals and does not require it, and the
spec's program P3 keeps it: DESIGN CHOICE, omitted (log 35). The registers are popped in the reverse order of their pushes: DEDUCED (log 36). -/
def epilogue (k : Nat) (saved : List Reg) : List Macro :=
  saved.reverse.map Macro.pop ++ (if k = 0 then [] else [.move BP SP]) ++ [.pop BP, .pop LP, .jmp LP]

/-- The frame's slots as byte offsets from BP (47_macros_conventions.md R261). -/
inductive Slot where
  | arg (i : Nat)
  | savedLp
  | savedBp
  | localVar (j : Nat)
deriving DecidableEq, Repr

/-- `arg_i` at `BP - 4*(i+3)`, saved LP at `BP - 8`, saved BP at `BP - 4`, `local_j` at `BP + 4*j` (47_macros_conventions.md R261). -/
def Slot.offset : Slot → Int
  | .arg i => -4 * (i + 3)
  | .savedLp => -8
  | .savedBp => -4
  | .localVar j => 4 * j

end Sys2Proof.Asm
end

