-- ==== Sys2Proof/Machine/Run.lean ====
section
/-! DEFINITION. The end of a run (spec/70_reset_and_hazards.md R322; D20, log 32). The machine itself never stops (R321); a claim about a program
names the address at which its run is over. -/

namespace Sys2Proof.Machine

/-- `BR(.)`, the branch to itself that marks the end of a run (R322). -/
def endWord : Word := 0x73FFFFFF

/-- The PC is at the designated address, in either mode, and the word the coming step fetches there is the branch to itself
(R322). -/
def State.atEnd (s : State) (address : Word) : Bool :=
  fetchAddress s.pc == address &&
    match s.sample.1.fetch with
    | .ok (w, _) => w == endWord
    | .error _ => false

/-- An interrupt is taken at the boundary the state stands at (60_exceptions.md R276). -/
def State.takesInterrupt (s : State) : Bool := (s.sample.1.interruptTaken s.sample.2).isSome

/-- Whether interrupt handlers are part of a run, which a definition of its end must say (R322). -/
inductive Handlers where
  /-- An interrupt taken on the way is a step of the run, and so are those of its handler. -/
  | included
  /-- A run in which an interrupt is taken is no run of the program. -/
  | excluded
deriving DecidableEq, Repr

/-- How a run of limited length comes out. -/
inductive RunOutcome where
  /-- The run is over; the state is read off (R322). -/
  | ended (s : State)
  /-- The steps allowed are used up. -/
  | unfinished (s : State)
  /-- An interrupt is about to be taken, and handlers are no part of the run. -/
  | interrupted (s : State)
  | fault (f : Fault)
  | refused (r : Refusal)
deriving DecidableEq, Repr

/-- Run for at most `k` steps, to the first state at the designated address's branch to itself (R322). -/
def runUntil (handlers : Handlers) (address : Word) : Nat → State → RunOutcome
  | 0, s => if s.atEnd address then .ended s else .unfinished s
  | k + 1, s =>
    if s.atEnd address then .ended s
    else if handlers == .excluded && s.takesInterrupt then .interrupted s
    else
      match step s with
      | .next t => runUntil handlers address k t
      | .fault f => .fault f
      | .refused r => .refused r

end Sys2Proof.Machine
end

