-- ==== Sys2Proof/Safety.lean ====
section
/-! DEFINITION. The terms claims are stated in: what a next state keeps and what it changes, the invariant of a run, and straight-line code. -/

namespace Sys2Proof.Machine

/-- The registers of `t` are those of `s`, but that `rc` holds `v`; register 31 reads 0 (10_state.md R21, R24). -/
def RegsAfter (s t : State) (rc : Reg) (v : Word) : Prop :=
  ∀ r : Reg, t.reg r = if r = 31 then 0 else if r = rc then v else s.reg r

/-- Every byte of memory reads as before. -/
def SameMemory (s t : State) : Prop := ∀ a : Nat, t.byteAt a = s.byteAt a

/-- The pending requests, the inputs to come and the configuration are as before. -/
def SameEnvironment (s t : State) : Prop := t.pending = s.pending ∧ t.env = s.env ∧ t.cfg = s.cfg

/-- The four bytes at cells `c` to `c + 3` of `t` are those of `v`, and every other byte of memory reads as before (20_memory.md R54). -/
def StoredWord (s t : State) (c : Nat) (v : Word) : Prop :=
  ∀ a : Nat, t.byteAt a = if c ≤ a ∧ a < c + 4 then byteOfWord s.cfg.byteOrder v (a - c) else s.byteAt a

/-- `i` completes at `s` with the one effect of an operate instruction: `x[rc] <- v`, `pc <- next(pc)` (40_arithmetic.md R118). -/
def OperateEffect (i : Instr) (s : State) (rc : Reg) (v : Word) : Prop :=
  ∃ t, exec i s = .next t ∧ RegsAfter s t rc v ∧ t.pc = nextPc s.pc ∧ SameMemory s t ∧ SameEnvironment s t

/-- `i` completes at `s` as a control transfer: the updated PC goes to `x[rc]` and the PC becomes `target` (44_branch_jump.md R191 to R193). -/
def TransferEffect (i : Instr) (s : State) (rc : Reg) (target : Word) : Prop :=
  ∃ t, exec i s = .next t ∧ RegsAfter s t rc (nextPc s.pc) ∧ t.pc = target ∧ SameMemory s t ∧ SameEnvironment s t

/-- `t` is `s` after exception entry with a vector: XP holds the updated PC, the Supervisor bit is set, bits 30:0 of the PC are those of the
vector, nothing else is written (60_exceptions.md R283, R284). -/
def EntersException (s t : State) (v : VectorIndex) : Prop :=
  RegsAfter s t xp (nextPc s.pc) ∧ t.supervisor = true ∧ t.pc.toNat = 2 ^ 31 + 4 * v.toNat ∧ SameMemory s t ∧ SameEnvironment s t

/-- The last word stored at an index by stores made in order. -/
def lastStore : List (BitVec 30 × Word) → BitVec 30 → Option Word
  | [], _ => none
  | (j, v) :: rest, i => (lastStore rest i).or (if j = i then some v else none)

/-- `i` raises IllegalInstruction at `s`: in user mode exception entry with VEC_ILLOP and no effect of its own
(46_privileged_illegal.md R232). -/
def RaisesIllegal (i : Instr) (s : State) : Prop :=
  exec i s = s.raiseIllegal ∧ (s.supervisor = false → ∃ t, exec i s = .next t ∧ EntersException s t s.cfg.vecIllop)

/-- What a device behind a parameter leaves of the memory and the pending requests: each aligned word is the last one stored there or as before, the
requests are those given; the inputs to come and the configuration are as before (20_memory.md R67; logs 11 and 13). -/
def DeviceStores (s t : State) (stores : List (BitVec 30 × Word)) (pending : List IrqSource) : Prop :=
  (∀ i : BitVec 30, Memory.readWord t.cfg.byteOrder t.mem (4 * i.toNat) =
    (lastStore stores i).getD (Memory.readWord s.cfg.byteOrder s.mem (4 * i.toNat))) ∧
  t.pending = pending ∧ t.env = s.env ∧ t.cfg = s.cfg

/-- `t` is `s` after the effect a parameter gives: R0 to R30 and bits 30:2 of the PC are the effect's, the Supervisor bit is kept, each aligned word
of memory is the last one stored there or as before (00_scope.md R11, R12; log 11). -/
def AppliesEffect (s t : State) (e : ArchEffect) : Prop :=
  (∀ (r : Reg) (h : r.toNat < 31), t.reg r = e.regs[r.toNat]) ∧ t.supervisor = s.supervisor ∧
  t.pc.toNat % 2 ^ 31 = 4 * e.pcIndex.toNat ∧ DeviceStores s t e.stores e.pending

/-- The four bytes of the word at `ea` are cells `c` to `c + 3`, backed by storage, under the machine's alignment policy and memory map. -/
def Reaches (s : State) (ea : Word) (c : Nat) : Prop := dataCell s.cfg ea = .ok c

/-- Every word of the opcode decodes to the Without-Literal instruction of its fields, on every machine that has the opcode (30_encoding.md R81, R89). -/
def DecodesOperate (op : BitVec 6) (mk : Reg → Reg → Reg → BitVec 11 → Instr) : Prop :=
  ∀ (hasMulDiv : Bool) (w : Word), (hasMulDiv = true ∨ op ∉ optionalOpcodes) → opcodeOf w = op →
    decodeWord hasMulDiv w = .ok (mk (rcOf w) (raOf w) (rbOf w) (unusedOf w))

/-- Every word of the opcode decodes to the With-Literal instruction of its fields, on every machine that has the opcode (30_encoding.md R82, R89). -/
def DecodesLiteral (op : BitVec 6) (mk : Reg → Reg → Literal → Instr) : Prop :=
  ∀ (hasMulDiv : Bool) (w : Word), (hasMulDiv = true ∨ op ∉ optionalOpcodes) → opcodeOf w = op →
    decodeWord hasMulDiv w = .ok (mk (rcOf w) (raOf w) (litOf w))

/-- The opcodes no instruction is assigned to on any machine (30_encoding.md R93). -/
def blankOpcodes : List (BitVec 6) :=
  [0x01, 0x02, 0x03, 0x04, 0x05, 0x06, 0x07, 0x08, 0x09, 0x0A, 0x0B, 0x0C, 0x0D, 0x0E, 0x0F, 0x10, 0x11, 0x12, 0x13, 0x14, 0x15,
    0x16, 0x17, 0x1A, 0x1E, 0x27, 0x2F, 0x37, 0x3F]

/-- The unassigned opcodes of a machine with HAS_MULDIV or without (30_encoding.md R93, R95). -/
def unassignedOpcodes (hasMulDiv : Bool) : List (BitVec 6) :=
  if hasMulDiv then blankOpcodes else blankOpcodes ++ optionalOpcodes

/-- Running `i` at `s` is what the implementation's own PRIV_EXEC or SUPERVISOR_FAULT makes of it (00_scope.md R11, R12): opcode 0x00, or an
optional opcode that is lacking, in supervisor mode. -/
def ParameterActs (i : Instr) (s : State) : Prop :=
  s.supervisor = true ∧
  ((i.opcode = 0 ∧ (s.cfg.privExec = .implementation ∨ s.cfg.privExec = .noInstruction ∧ s.cfg.supervisorFault = .implementation)) ∨
   (i.opcode ∈ optionalOpcodes ∧ s.cfg.hasMulDiv = false ∧ s.cfg.supervisorFault = .implementation))

/-- The step from `s` is what the implementation's own PRIV_EXEC or SUPERVISOR_FAULT makes of the word at the PC. -/
def StepParameterActs (s : State) : Prop :=
  ∃ w u, s.sample.1.fetch = .ok (w, u) ∧
    ((∃ i, decodeWord s.cfg.hasMulDiv w = .ok i ∧ ParameterActs i s) ∨
     (opcodeOf w ∈ unassignedOpcodes s.cfg.hasMulDiv ∧ s.supervisor = true ∧ s.cfg.supervisorFault = .implementation))

/-- The address of the data access of an instruction, where it makes one (45_load_store.md R210 to R212). -/
def dataAddress (s : State) : Instr → Option Word
  | .ld _ ra lit => some (s.baseAddress ra lit)
  | .ldr _ _ lit => some (relativeAddress (nextPc s.pc) lit)
  | .st _ ra lit => some (s.baseAddress ra lit)
  | .priv _ | .jmp _ _ _ | .beq _ _ _ | .bne _ _ _ => none
  | .add _ _ _ _ | .sub _ _ _ _ | .mul _ _ _ _ | .div _ _ _ _ | .cmpeq _ _ _ _ | .cmplt _ _ _ _ | .cmple _ _ _ _
  | .and _ _ _ _ | .or _ _ _ _ | .xor _ _ _ _ | .xnor _ _ _ _ | .shl _ _ _ _ | .shr _ _ _ _ | .sra _ _ _ _ => none
  | .addc _ _ _ | .subc _ _ _ | .mulc _ _ _ | .divc _ _ _ | .cmpeqc _ _ _ | .cmpltc _ _ _ | .cmplec _ _ _
  | .andc _ _ _ | .orc _ _ _ | .xorc _ _ _ | .xnorc _ _ _ | .shlc _ _ _ | .shrc _ _ _ | .srac _ _ _ => none

/-- The data access of `i` at `s` is what the implementation's own MEM_MAP makes of it (00_scope.md R13): one to an address no storage backs. -/
def UnbackedActs (i : Instr) (s : State) : Prop :=
  s.cfg.unbacked = .implementation ∧ ∃ ea index, dataAddress s i = some ea ∧ dataCell s.cfg ea = .error (.unbacked index)

/-- The step from `s` makes an access, a fetch or that of the instruction fetched, which is what the implementation's own MEM_MAP makes of it. -/
def StepUnbackedActs (s : State) : Prop :=
  (s.cfg.unbacked = .implementation ∧ ∃ index, backedCell s.cfg (fetchAddress s.pc) = .error (.unbacked index)) ∨
  ∃ w u i, s.sample.1.fetch = .ok (w, u) ∧ decodeWord s.cfg.hasMulDiv w = .ok i ∧ UnbackedActs i s

/-- The name of the refusal of an access that reaches no storage, where MEM_MAP refuses the unbacked ones (D2, D15; logs 13 and 15). -/
def defaultRefusal : NoStorage → Refusal
  | .misaligned => .misalignedAccess
  | .unbacked _ => .unbackedAccess

/-- The register an instruction names as its destination Rc: none for ST, whose Rc is a source, and for opcode 0x00 (10_state.md R24). -/
def destination : Instr → Option Reg
  | .priv _ => none
  | .st _ _ _ => none
  | .ld rc _ _ | .ldr rc _ _ | .jmp rc _ _ | .beq rc _ _ | .bne rc _ _ => some rc
  | .add rc _ _ _ | .sub rc _ _ _ | .mul rc _ _ _ | .div rc _ _ _ | .cmpeq rc _ _ _ | .cmplt rc _ _ _ | .cmple rc _ _ _
  | .and rc _ _ _ | .or rc _ _ _ | .xor rc _ _ _ | .xnor rc _ _ _ | .shl rc _ _ _ | .shr rc _ _ _ | .sra rc _ _ _ => some rc
  | .addc rc _ _ | .subc rc _ _ | .mulc rc _ _ | .divc rc _ _ | .cmpeqc rc _ _ | .cmpltc rc _ _ | .cmplec rc _ _
  | .andc rc _ _ | .orc rc _ _ | .xorc rc _ _ | .xnorc rc _ _ | .shlc rc _ _ | .shrc rc _ _ | .srac rc _ _ => some rc

/-- The instructions that touch data memory (20_memory.md R51, R52). -/
def touchesMemory : Instr → Bool
  | .ld _ _ _ | .ldr _ _ _ | .st _ _ _ => true
  | .priv _ | .jmp _ _ _ | .beq _ _ _ | .bne _ _ _ => false
  | .add _ _ _ _ | .sub _ _ _ _ | .mul _ _ _ _ | .div _ _ _ _ | .cmpeq _ _ _ _ | .cmplt _ _ _ _ | .cmple _ _ _ _
  | .and _ _ _ _ | .or _ _ _ _ | .xor _ _ _ _ | .xnor _ _ _ _ | .shl _ _ _ _ | .shr _ _ _ _ | .sra _ _ _ _ => false
  | .addc _ _ _ | .subc _ _ _ | .mulc _ _ _ | .divc _ _ _ | .cmpeqc _ _ _ | .cmpltc _ _ _ | .cmplec _ _ _
  | .andc _ _ _ | .orc _ _ _ | .xorc _ _ _ | .xnorc _ _ _ | .shlc _ _ _ | .shrc _ _ _ | .srac _ _ _ => false

/-- No interrupt is taken at the boundary `s` stands at. -/
def NoInterrupt (s : State) : Prop := s.sample.1.interruptTaken s.sample.2 = none

/-- `s` and `t` are a little-endian and a big-endian machine that agree on everything but the byte order, with the same aligned words. -/
def SameWords (s t : State) : Prop :=
  s.cfg.byteOrder = .little ∧ t.cfg = { s.cfg with byteOrder := .big } ∧ t.regs = s.regs ∧ t.pc = s.pc ∧
  t.pending = s.pending ∧ t.env = s.env ∧
  ∀ c, c % 4 = 0 → c < 2 ^ 32 → Memory.readWord .big t.mem c = Memory.readWord .little s.mem c

/-- Two outcomes of one kind: next states that are related, or the same fault or refusal. -/
def SameOutcome (related : State → State → Prop) : Result → Result → Prop
  | .next s, .next t => related s t
  | .fault r, .fault q => r = q
  | .refused r, .refused q => r = q
  | _, _ => False

/-- The invariant of a run: the memory keeps its canonical form and the PC is a multiple of 4 (10_state.md R26). -/
def State.Inv (s : State) : Prop := Memory.wf s.mem = true ∧ s.pc.toNat % 4 = 0

/-- The meanings of a straight line of instructions, one after another. -/
def execAll : List Instr → State → Result
  | [], s => .next s
  | i :: rest, s =>
    match exec i s with
    | .next t => execAll rest t
    | .fault r => .fault r
    | .refused r => .refused r

/-- `k` steps from `s` end in `t` with no fault and no refusal on the way: a safe run. -/
def RunsTo (k : Nat) (s t : State) : Prop := Host.Core.run Sys2Proof.core k s = .next t

end Sys2Proof.Machine
end

