-- ==== Sys2Proof/Certificates/Slice0/Obligations.lean ====
section
/-! DEFINITION. The statements for the provers, from the numbered rules of spec/. -/

open Sys2Proof Sys2Proof.Machine

/-! Reset and the invariant -/

/-- 10_state.md R37: after reset the PC is 0x80000000, so supervisor mode, interrupts disabled, execution at location 0; R31 is 0; every other
register, the memory and the pending requests are whatever the draw holds (State.powerUp stands for every draw). -/
def Obligations.PowerUpFixesPcAndModeOnly : Prop :=
  ∀ (regs : Vector Word 31) (mem : Memory) (pending : List IrqSource) (env : List Boundary) (cfg : Config),
    let s := State.powerUp regs mem pending env cfg
    s.pc = 0x80000000 ∧ s.supervisor = true ∧ (∀ q, s.interruptTaken q = none) ∧ fetchAddress s.pc = 0 ∧
    s.reg 31 = 0 ∧ (∀ (r : Reg) (h : r.toNat < 31), s.reg r = regs[r.toNat]) ∧ s.mem = mem ∧ s.pending = pending

/-- The invariant holds at State.reset, which is one of the power-up states (the register values are the model's choice, logs 1 to 4, and the
statement does not rest on them), and at every power-up state whose memory is in canonical form. -/
def Obligations.ResetHasTheInvariant : Prop :=
  State.reset.Inv ∧ (∃ regs mem pending env cfg, State.reset = State.powerUp regs mem pending env cfg) ∧
  ∀ regs mem pending env cfg, Memory.wf mem = true → (State.powerUp regs mem pending env cfg).Inv

/-- 10_state.md R26, an inference of the spec: the PC stays a multiple of 4; and the memory keeps its canonical form. -/
def Obligations.StepKeepsTheInvariant : Prop :=
  ∀ s t : State, s.Inv → step s = .next t → t.Inv

/-- Every run, from any state that has the invariant, of any length, keeps the invariant and the configuration. -/
def Obligations.RunsKeepInvariantAndConfiguration : Prop :=
  ∀ (k : Nat) (s t : State), s.Inv → RunsTo k s t → t.Inv ∧ t.cfg = s.cfg

/-! Modes, exceptions and interrupts -/

/-- 60_exceptions.md R291: user mode is left only by an exception, an interrupt before the fetch or an illegal instruction after it; supervisor mode
is left only by a JMP through a register with bit 31 clear. That the effects of PRIV_EXEC, SUPERVISOR_FAULT and MEM_MAP keep the Supervisor bit is
10_state.md R29, as logs 11 to 13 take it. -/
def Obligations.ModeChangesOnlyByExceptionAndJump : Prop :=
  ∀ s t : State, step s = .next t →
    (s.supervisor = false → t.supervisor = true →
      (∃ q v, vecIrq s.cfg q = some v ∧ EntersException s.sample.1 t v) ∨
      ∃ w u, s.sample.1.fetch = .ok (w, u) ∧ EntersException u t s.cfg.vecIllop) ∧
    (s.supervisor = true → t.supervisor = false →
      ∃ w u rc ra lit, s.sample.1.fetch = .ok (w, u) ∧ decodeWord s.cfg.hasMulDiv w = .ok (.jmp rc ra lit) ∧
        (s.reg ra).toNat < 2 ^ 31)

/-- 60_exceptions.md R274: the Supervisor bit is the only interrupt mask. In supervisor mode a step is the instruction, whatever the environment
asks; in user mode every pending source of the machine that the environment picks (log 9) is taken. -/
def Obligations.SupervisorBitIsTheOnlyInterruptMask : Prop :=
  (∀ s : State, s.supervisor = true → step s = runInstruction s.sample.1) ∧
  (∀ (s : State) (q : IrqSource) (v : VectorIndex), s.supervisor = false → s.sample.2 = some q → q ∈ s.sample.1.pending →
    vecIrq s.cfg q = some v → ∃ t, step s = .next t ∧ EntersException s.sample.1 t v)

/-- 60_exceptions.md R283: exception entry from user mode. XP receives the updated PC, whose bit 31 is 0; the machine is in supervisor mode and
fetches at the vector; no other register and no memory is written. -/
def Obligations.ExceptionEntryFromUserMode : Prop :=
  ∀ (s : State) (v : VectorIndex), s.supervisor = false →
    EntersException s (s.enterException v) v ∧ ((s.enterException v).reg xp).toNat < 2 ^ 31 ∧
    fetchAddress (s.enterException v).pc = vectorWord v

/-- 60_exceptions.md R282: an interrupt taken in place of the instruction about to execute leaves in XP the PC of the instruction following that
one, and the instruction to resume is at XP - 4; whatever word stands at the PC, it is not executed. -/
def Obligations.InterruptDisplacesTheInstruction : Prop :=
  ∀ (s : State) (b : Boundary) (rest : List Boundary) (q : IrqSource) (v : VectorIndex),
    s.env = b :: rest → b.take = some q → q ∈ b.pending → s.supervisor = false → vecIrq s.cfg q = some v →
    ∃ t, step s = .next t ∧ RegsAfter s t xp (nextPc s.pc) ∧ t.supervisor = true ∧ t.pc.toNat = 2 ^ 31 + 4 * v.toNat ∧
      SameMemory s t ∧ t.pending = b.pending ∧ t.env = rest ∧ t.cfg = s.cfg ∧
      fetchAddress (t.reg xp - 4) = fetchAddress s.pc

/-- An interrupt that the environment lets wait, or that is not pending, is not taken (60_exceptions.md R276, decision D14; log 9). -/
def Obligations.DeferredInterruptRunsTheInstruction : Prop :=
  ∀ s : State, (s.sample.2 = none ∨ ∃ q, s.sample.2 = some q ∧ q ∉ s.sample.1.pending) → step s = runInstruction s.sample.1

/-- 46_privileged_illegal.md R231, R232: raising IllegalInstruction in user mode is exception entry with VEC_ILLOP and no other effect, and every
word of opcode 0x00 does so in user mode, whatever PRIV_EXEC is. That entry is the one effect the spec gives the opcode. -/
def Obligations.PrivilegedOpcodeInUserModeTraps : Prop :=
  (∀ (hasMulDiv : Bool) (w : Word), opcodeOf w = 0 → decodeWord hasMulDiv w = .ok (.priv (bodyOf w))) ∧
  ∀ s : State, s.supervisor = false →
    (∃ t, s.raiseIllegal = .next t ∧ EntersException s t s.cfg.vecIllop) ∧
    ∀ body, ∃ t, exec (.priv body) s = .next t ∧ EntersException s t s.cfg.vecIllop

/-- The model's stop for opcode 0x00 in supervisor mode: refused by the default PRIV_EXEC, an illegal instruction where the implementation
defines none (46_privileged_illegal.md R230, decision D10; log 11), which faults by the default SUPERVISOR_FAULT (R234, decision D9; log 12). -/
def Obligations.PrivilegedOpcodeInSupervisorModeStops : Prop :=
  ∀ (s : State) (body : BitVec 26), s.supervisor = true →
    (s.cfg.privExec = .refuse → exec (.priv body) s = .refused .privilegedUndefined) ∧
    (s.cfg.privExec = .noInstruction → s.cfg.supervisorFault = .fault → exec (.priv body) s = .fault .supervisorFault)

/-- Opcode 0x00 in supervisor mode under an implementation's own PRIV_EXEC: its outcome for the state and the word, whatever it is, and
SUPERVISOR_FAULT where it defines no instruction for the word (00_scope.md R11, 46_privileged_illegal.md R230; what an effect may change is
log 11). -/
def Obligations.PrivilegedInstructionIsThePrivExecOutcome : Prop :=
  ∀ (s : State) (w : Word) (i : Instr), s.supervisor = true → s.cfg.privExec = .implementation → opcodeOf w = 0 →
    decodeWord s.cfg.hasMulDiv w = .ok i →
    match Config.privExecOutcome s.view w with
    | none => exec i s = s.supervisorFault
    | some .fault => exec i s = .fault .privilegedFault
    | some .refuse => exec i s = .refused .privilegedUndefined
    | some (.effect e) => ∃ t, exec i s = .next t ∧ AppliesEffect s t e

/-- An illegal instruction in supervisor mode is SUPERVISOR_FAULT of the state: a fault by default, else the outcome of the implementation's own,
whatever it is (00_scope.md R12, 46_privileged_illegal.md R234, decision D9; log 12). -/
def Obligations.SupervisorFaultIsTheParameter : Prop :=
  ∀ s : State, s.supervisor = true → s.raiseIllegal = s.supervisorFault ∧
    (s.cfg.supervisorFault = .fault → s.supervisorFault = .fault .supervisorFault) ∧
    (s.cfg.supervisorFault = .implementation →
      match Config.supervisorFaultOutcome s.view with
      | .fault => s.supervisorFault = .fault .supervisorFault
      | .refuse => s.supervisorFault = .refused .supervisorFaultUndefined
      | .effect e => ∃ t, s.supervisorFault = .next t ∧ AppliesEffect s t e)

/-- An effect that PRIV_EXEC or SUPERVISOR_FAULT gives is applied whole, and in any state: the registers, the PC but for the Supervisor bit, the
words stored with the last one to an address counting, and the pending requests (log 11). -/
def Obligations.ParameterEffectIsApplied : Prop :=
  ∀ (s : State) (e : ArchEffect), AppliesEffect s (s.applyEffect e) e

/-- An unassigned opcode, which the four optional ones are on a machine without them, raises IllegalInstruction in user mode and is
SUPERVISOR_FAULT in supervisor mode, by default a fault, in the state after its fetch (46_privileged_illegal.md R233, R234, decisions D7 and D9;
logs 20 and 12). -/
def Obligations.UnassignedOpcodeIsIllegal : Prop :=
  ∀ (s u : State) (w : Word), s.sample.1.fetch = .ok (w, u) → opcodeOf w ∈ unassignedOpcodes s.cfg.hasMulDiv → NoInterrupt s →
    (s.supervisor = false → ∃ t, step s = .next t ∧ EntersException u t s.cfg.vecIllop) ∧
    (s.supervisor = true → step s = u.supervisorFault) ∧
    (s.supervisor = true → s.cfg.supervisorFault = .fault → step s = .fault .supervisorFault)

/-- The returns of 60_exceptions.md R287: after an exception entry from user mode, `SUBC(XP,4,XP)` and `JMP(XP)` resume the displaced instruction,
and `JMP(XP)` alone goes past it, in user mode with every register but XP as it was. The last word of the range is left out: there XP wraps to 0
(decision D11; log 21) and the SUBC borrows into bit 31. -/
def Obligations.HandlerReturnsToUserMode : Prop :=
  ∀ (s : State) (v : VectorIndex), s.supervisor = false → s.pc.toNat % 4 = 0 → s.pc ≠ 0x7FFFFFFC →
    (∃ t, execAll [Asm.subc Asm.XP 4 Asm.XP, Asm.jmp Asm.XP 31] (s.enterException v) = .next t ∧ t.pc = s.pc ∧
      RegsAfter s t xp s.pc ∧ SameMemory s t) ∧
    (∃ t, exec (Asm.jmp Asm.XP 31) (s.enterException v) = .next t ∧ t.pc = nextPc s.pc ∧ t.supervisor = false ∧
      RegsAfter s t xp (nextPc s.pc) ∧ SameMemory s t)

/-! Registers and the PC -/

/-- 10_state.md R21: register 31 reads 0 and a write of it is discarded, while the instruction's other effects happen: the PC of an operate
instruction, the read of a load, the transfer of a branch and of JMP. -/
def Obligations.RegisterThirtyOneIsZero : Prop :=
  (∀ s : State, s.reg 31 = 0) ∧ (∀ (s : State) (v : Word), s.setReg 31 v = s) ∧
  (∀ (s : State) (v : Word), s.operate 31 v = .next s.advance) ∧
  (∀ (s : State) (ea : Word), s.load 31 ea = match s.advance.memRead ea with | .ok (_, t) => .next t | .error r => .refused r) ∧
  (∀ (s : State) (taken : Bool) (lit : Literal),
    s.branch taken 31 lit = .next (s.setPc (if taken then branchTarget (nextPc s.pc) lit else nextPc s.pc))) ∧
  (∀ (s : State) (ra : Reg) (u : Literal), exec (.jmp 31 ra u) s = .next (s.setPc (jumpPc s.pc (s.reg ra))))

/-- The updated PC as a number: 4 more in bits 30:0, wrapping modulo 2^31, bit 31 kept (10_state.md R27; the wrap is decision D11, log 21). -/
def Obligations.UpdatedPcKeepsTheSupervisorBit : Prop :=
  ∀ pc : Word, (nextPc pc).toNat = pc.toNat / 2 ^ 31 * 2 ^ 31 + (pc.toNat + 4) % 2 ^ 31

/-- The branch target as a number: the updated PC plus four times the signed literal in bits 30:0, wrapping modulo 2^31, bit 31 kept
(44_branch_jump.md R190; the wrap is decision D11, log 21). -/
def Obligations.BranchTargetKeepsTheSupervisorBit : Prop :=
  ∀ (pcn : Word) (lit : Literal),
    ((branchTarget pcn lit).toNat : Int) = pcn.toNat / 2 ^ 31 * 2 ^ 31 + (pcn.toNat + 4 * lit.toInt) % 2 ^ 31

/-- Which registers a step may change: the destination Rc of the instruction it runs, or XP when it takes an exception (the table of
10_state.md R24). Where the implementation's own PRIV_EXEC or SUPERVISOR_FAULT acts, it may change any (logs 11 and 12). That its own MEM_MAP
changes none by an access is the model's choice (log 13). -/
def Obligations.StepChangesOnlyTheDestination : Prop :=
  ∀ (s t : State) (r : Reg), step s = .next t → t.reg r ≠ s.reg r →
    (r = xp ∧ s.supervisor = false ∧ t.supervisor = true) ∨ StepParameterActs s ∨
    ∃ w u i, s.sample.1.fetch = .ok (w, u) ∧ decodeWord s.cfg.hasMulDiv w = .ok i ∧ destination i = some r

/-! The operate instructions: encoding and effect. OperateEffect says the next state whole: the one register, the PC, and that every other
register, every byte of memory and the rest stay. -/

/-- 40_arithmetic.md R110 to R113: sums and differences modulo 2^32, the literal sign-extended. -/
def Obligations.AddAndSubtractWrapModuloTwoToThe32 : Prop :=
  (DecodesOperate 0b100000 .add ∧ DecodesLiteral 0b110000 .addc ∧ DecodesOperate 0b100001 .sub ∧ DecodesLiteral 0b110001 .subc) ∧
  ∀ (s : State) (rc ra rb : Reg) (u : BitVec 11) (lit : Literal),
    OperateEffect (.add rc ra rb u) s rc (BitVec.ofNat 32 ((s.reg ra).toNat + (s.reg rb).toNat)) ∧
    OperateEffect (.addc rc ra lit) s rc (BitVec.ofInt 32 ((s.reg ra).toNat + lit.toInt)) ∧
    OperateEffect (.sub rc ra rb u) s rc (BitVec.ofInt 32 ((s.reg ra).toNat - (s.reg rb).toNat)) ∧
    OperateEffect (.subc rc ra lit) s rc (BitVec.ofInt 32 ((s.reg ra).toNat - lit.toInt))

/-- MUL and MULC (40_arithmetic.md R114, R115): the low-order 32 bits of the product, where the optional opcodes are implemented; where they are
not, the word decodes to illegal and the opcode raises IllegalInstruction, by the spec's reading (decision D7; log 20); the meaning called on its
own does the same (log 26). -/
def Obligations.MultiplyKeepsTheLowWord : Prop :=
  (DecodesOperate 0b100010 .mul ∧ DecodesLiteral 0b110010 .mulc) ∧
  (∀ w : Word, (opcodeOf w = 0b100010 ∨ opcodeOf w = 0b110010) → decodeWord false w = .error (.illegalOpcode (opcodeOf w))) ∧
  ∀ (s : State) (rc ra rb : Reg) (u : BitVec 11) (lit : Literal),
    (s.cfg.hasMulDiv = true →
      OperateEffect (.mul rc ra rb u) s rc (BitVec.ofNat 32 ((s.reg ra).toNat * (s.reg rb).toNat)) ∧
      OperateEffect (.mulc rc ra lit) s rc (BitVec.ofInt 32 ((s.reg ra).toNat * lit.toInt))) ∧
    (s.cfg.hasMulDiv = false →
      RaisesIllegal (.mul rc ra rb u) s ∧ RaisesIllegal (.mulc rc ra lit) s)

/-- DIV and DIVC, where implemented: the signed quotient rounded toward zero, as the sign and magnitude table of 40_arithmetic.md R119 gives it
(decision D4, log 17), its low-order 32 bits; for a zero divisor no exception but a free value of the dividend (decision D5, log 16). Where they
are not implemented the word decodes to illegal and the opcode raises IllegalInstruction (decision D7, log 20); the meaning called on its own does
the same (log 26). -/
def Obligations.DivideTruncatesTowardZero : Prop :=
  (DecodesOperate 0b100011 .div ∧ DecodesLiteral 0b110011 .divc) ∧
  (∀ w : Word, (opcodeOf w = 0b100011 ∨ opcodeOf w = 0b110011) → decodeWord false w = .error (.illegalOpcode (opcodeOf w))) ∧
  ∀ (s : State) (rc ra rb : Reg) (u : BitVec 11) (lit : Literal),
    (s.cfg.hasMulDiv = true →
      let quotient (a : Word) (b : Int) : Word :=
        if b = 0 then Config.divByZero a else BitVec.ofInt 32 (a.toInt.sign * b.sign * (a.toInt.natAbs / b.natAbs : Nat))
      OperateEffect (.div rc ra rb u) s rc (quotient (s.reg ra) (s.reg rb).toInt) ∧
      OperateEffect (.divc rc ra lit) s rc (quotient (s.reg ra) lit.toInt)) ∧
    (s.cfg.hasMulDiv = false →
      RaisesIllegal (.div rc ra rb u) s ∧ RaisesIllegal (.divc rc ra lit) s)

/-- 41_logical.md R130 to R133: AND and OR and their literal forms, bit by bit; bits 31:16 of the literal operand are copies of its bit 15. -/
def Obligations.AndOrActBitByBit : Prop :=
  (DecodesOperate 0b101000 .and ∧ DecodesLiteral 0b111000 .andc ∧ DecodesOperate 0b101001 .or ∧ DecodesLiteral 0b111001 .orc) ∧
  ∀ (s : State) (rc ra rb : Reg) (u : BitVec 11) (lit : Literal),
    ∃ vAnd vAndc vOr vOrc : Word,
      OperateEffect (.and rc ra rb u) s rc vAnd ∧ OperateEffect (.andc rc ra lit) s rc vAndc ∧
      OperateEffect (.or rc ra rb u) s rc vOr ∧ OperateEffect (.orc rc ra lit) s rc vOrc ∧
      ∀ k < 32,
        let a := (s.reg ra).getLsbD k
        let b := (s.reg rb).getLsbD k
        let l := lit.getLsbD (min k 15)
        vAnd.getLsbD k = (a && b) ∧ vAndc.getLsbD k = (a && l) ∧ vOr.getLsbD k = (a || b) ∧ vOrc.getLsbD k = (a || l)

/-- 41_logical.md R134 to R137: XOR and XNOR and their literal forms, bit by bit. -/
def Obligations.XorXnorActBitByBit : Prop :=
  (DecodesOperate 0b101010 .xor ∧ DecodesLiteral 0b111010 .xorc ∧ DecodesOperate 0b101011 .xnor ∧ DecodesLiteral 0b111011 .xnorc) ∧
  ∀ (s : State) (rc ra rb : Reg) (u : BitVec 11) (lit : Literal),
    ∃ vXor vXorc vXnor vXnorc : Word,
      OperateEffect (.xor rc ra rb u) s rc vXor ∧ OperateEffect (.xorc rc ra lit) s rc vXorc ∧
      OperateEffect (.xnor rc ra rb u) s rc vXnor ∧ OperateEffect (.xnorc rc ra lit) s rc vXnorc ∧
      ∀ k < 32,
        let a := (s.reg ra).getLsbD k
        let b := (s.reg rb).getLsbD k
        let l := lit.getLsbD (min k 15)
        vXor.getLsbD k = (a ^^ b) ∧ vXorc.getLsbD k = (a ^^ l) ∧ vXnor.getLsbD k = !(a ^^ b) ∧ vXnorc.getLsbD k = !(a ^^ l)

/-- 42_compare.md R150, R151: 1 where the register equals the register or the sign-extended literal, else 0. -/
def Obligations.CompareEqualWritesOneOrZero : Prop :=
  (DecodesOperate 0b100100 .cmpeq ∧ DecodesLiteral 0b110100 .cmpeqc) ∧
  ∀ (s : State) (rc ra rb : Reg) (u : BitVec 11) (lit : Literal),
    OperateEffect (.cmpeq rc ra rb u) s rc (if (s.reg ra).toNat = (s.reg rb).toNat then 1 else 0) ∧
    OperateEffect (.cmpeqc rc ra lit) s rc (if (s.reg ra).toInt = lit.toInt then 1 else 0)

/-- CMPLT, CMPLE and their literal forms compare signed two's-complement values exactly (42_compare.md R152 to R156; signed by decision D3,
log 18). -/
def Obligations.OrderedComparesAreSigned : Prop :=
  (DecodesOperate 0b100101 .cmplt ∧ DecodesLiteral 0b110101 .cmpltc ∧ DecodesOperate 0b100110 .cmple ∧ DecodesLiteral 0b110110 .cmplec) ∧
  ∀ (s : State) (rc ra rb : Reg) (u : BitVec 11) (lit : Literal),
    OperateEffect (.cmplt rc ra rb u) s rc (if (s.reg ra).toInt < (s.reg rb).toInt then 1 else 0) ∧
    OperateEffect (.cmpltc rc ra lit) s rc (if (s.reg ra).toInt < lit.toInt then 1 else 0) ∧
    OperateEffect (.cmple rc ra rb u) s rc (if (s.reg ra).toInt ≤ (s.reg rb).toInt then 1 else 0) ∧
    OperateEffect (.cmplec rc ra lit) s rc (if (s.reg ra).toInt ≤ lit.toInt then 1 else 0)

/-- SHL, SHR and their literal forms: multiplication modulo 2^32 and unsigned division by 2^n, n the low five bits of the count (43_shift.md R170
to R173; their opcodes are the spec's recovery, 30_encoding.md R88, log 25). -/
def Obligations.LogicalShiftsMultiplyAndDivide : Prop :=
  (DecodesOperate 0b101100 .shl ∧ DecodesLiteral 0b111100 .shlc ∧ DecodesOperate 0b101101 .shr ∧ DecodesLiteral 0b111101 .shrc) ∧
  ∀ (s : State) (rc ra rb : Reg) (u : BitVec 11) (lit : Literal),
    OperateEffect (.shl rc ra rb u) s rc (BitVec.ofNat 32 ((s.reg ra).toNat * 2 ^ ((s.reg rb).toNat % 32))) ∧
    OperateEffect (.shlc rc ra lit) s rc (BitVec.ofNat 32 ((s.reg ra).toNat * 2 ^ (lit.toNat % 32))) ∧
    OperateEffect (.shr rc ra rb u) s rc (BitVec.ofNat 32 ((s.reg ra).toNat / 2 ^ ((s.reg rb).toNat % 32))) ∧
    OperateEffect (.shrc rc ra lit) s rc (BitVec.ofNat 32 ((s.reg ra).toNat / 2 ^ (lit.toNat % 32)))

/-- 43_shift.md R174, R175: SRA and SRAC, the signed value divided by 2^n and rounded down, n the low five bits of the count. -/
def Obligations.ArithmeticShiftRoundsDown : Prop :=
  (DecodesOperate 0b101110 .sra ∧ DecodesLiteral 0b111110 .srac) ∧
  ∀ (s : State) (rc ra rb : Reg) (u : BitVec 11) (lit : Literal),
    OperateEffect (.sra rc ra rb u) s rc (BitVec.ofInt 32 ((s.reg ra).toInt / 2 ^ ((s.reg rb).toNat % 32))) ∧
    OperateEffect (.srac rc ra lit) s rc (BitVec.ofInt 32 ((s.reg ra).toInt / 2 ^ (lit.toNat % 32)))

/-! Control transfer -/

/-- BEQ and BNE (44_branch_jump.md R191, R192) link the updated PC whether or not they branch, test the value Ra held before, and go to the branch
target or on; BF and BT are other spellings of them. That the link carries the Supervisor bit is decision D13 (log 23). -/
def Obligations.BranchesTestAndLink : Prop :=
  (DecodesLiteral 0b011100 .beq ∧ DecodesLiteral 0b011101 .bne) ∧
  (∀ (ra rc : Reg) (lit : Literal), Asm.bf ra lit rc = .beq rc ra lit ∧ Asm.bt ra lit rc = .bne rc ra lit) ∧
  ∀ (s : State) (rc ra : Reg) (lit : Literal),
    TransferEffect (.beq rc ra lit) s rc (if s.reg ra = 0 then branchTarget (nextPc s.pc) lit else nextPc s.pc) ∧
    TransferEffect (.bne rc ra lit) s rc (if s.reg ra ≠ 0 then branchTarget (nextPc s.pc) lit else nextPc s.pc)

/-- JMP (44_branch_jump.md R193) links the updated PC and goes to the old Ra with the low two bits dropped; bit 31 of the new PC is the AND of the
old one and of Ra's, so JMP can clear the Supervisor bit and never sets it. The mask is the spec's correction C5 (log 27), the link decision D13
(log 23), the idle literal decision D6 (log 19). -/
def Obligations.JumpMasksAndNeverEntersSupervisorMode : Prop :=
  DecodesLiteral 0b011011 .jmp ∧
  ∀ (s : State) (rc ra : Reg) (u : Literal), ∃ target : Word,
    TransferEffect (.jmp rc ra u) s rc target ∧
    target.toNat = (s.reg ra).toNat % 2 ^ 31 / 4 * 4 +
      (if 2 ^ 31 ≤ s.pc.toNat ∧ 2 ^ 31 ≤ (s.reg ra).toNat then 2 ^ 31 else 0)

/-! Loads, store and memory -/

/-- 45_load_store.md R210: LD reads the word at Ra plus the sign-extended literal, modulo 2^32, into Rc, wherever that address reaches a word. -/
def Obligations.LoadReadsTheWord : Prop :=
  DecodesLiteral 0b011000 .ld ∧
  ∀ (s : State) (rc ra : Reg) (lit : Literal) (c : Nat),
    Reaches s (BitVec.ofInt 32 ((s.reg ra).toNat + lit.toInt)) c → OperateEffect (.ld rc ra lit) s rc
      (wordOfBytes s.cfg.byteOrder (s.byteAt c) (s.byteAt (c + 1)) (s.byteAt (c + 2)) (s.byteAt (c + 3)))

/-- LDR reads the word at the updated PC, its bit 31 taken as zero, plus four times the literal, modulo 2^32, whatever its Ra field holds
(45_load_store.md R211; what the sum does outside 31 bits is decision D12, log 22). -/
def Obligations.LoadRelativeIgnoresTheSupervisorBit : Prop :=
  DecodesLiteral 0b011111 .ldr ∧
  ∀ (s : State) (rc ra : Reg) (lit : Literal),
    let ea := BitVec.ofInt 32 (((s.pc.toNat + 4) % 2 ^ 31 : Nat) + 4 * lit.toInt)
    (∀ c, Reaches s ea c → OperateEffect (.ldr rc ra lit) s rc
      (wordOfBytes s.cfg.byteOrder (s.byteAt c) (s.byteAt (c + 1)) (s.byteAt (c + 2)) (s.byteAt (c + 3)))) ∧
    (s.pc.toNat % 4 = 0 → ea.toNat % 4 = 0)

/-- 45_load_store.md R212: ST writes the word in Rc at Ra plus the sign-extended literal, modulo 2^32, wherever that address reaches a word; no
register is written and no other byte of memory changes. -/
def Obligations.StoreWritesTheWordAndNothingElse : Prop :=
  DecodesLiteral 0b011001 .st ∧
  ∀ (s : State) (rc ra : Reg) (lit : Literal) (c : Nat),
    Reaches s (BitVec.ofInt 32 ((s.reg ra).toNat + lit.toInt)) c →
      ∃ t, exec (.st rc ra lit) s = .next t ∧ (∀ r, t.reg r = s.reg r) ∧ t.pc = nextPc s.pc ∧
        StoredWord s t c (s.reg rc) ∧ SameEnvironment s t

/-- The model's choice (logs 13 and 15; decisions D2, D15): a load or a store whose address reaches no word is refused by the reason, a misaligned
one under the policy refuse always, one to an unbacked address by default; these are then the only stops of LD, LDR and ST, and no memory map makes
them fault. -/
def Obligations.AccessThatReachesNoWordIsRefused : Prop :=
  ∀ (s : State) (rc ra : Reg) (lit : Literal),
    let base := BitVec.ofInt 32 ((s.reg ra).toNat + lit.toInt)
    let relative := BitVec.ofInt 32 (((s.pc.toNat + 4) % 2 ^ 31 : Nat) + 4 * lit.toInt)
    (dataCell s.cfg base = .error .misaligned →
      exec (.ld rc ra lit) s = .refused .misalignedAccess ∧ exec (.st rc ra lit) s = .refused .misalignedAccess) ∧
    (dataCell s.cfg relative = .error .misaligned → exec (.ldr rc ra lit) s = .refused .misalignedAccess) ∧
    (s.cfg.unbacked = .refuse →
      (∀ r, exec (.ld rc ra lit) s = .refused r ↔ ∃ n, dataCell s.cfg base = .error n ∧ r = defaultRefusal n) ∧
      (∀ r, exec (.st rc ra lit) s = .refused r ↔ ∃ n, dataCell s.cfg base = .error n ∧ r = defaultRefusal n) ∧
      (∀ r, exec (.ldr rc ra lit) s = .refused r ↔ ∃ n, dataCell s.cfg relative = .error n ∧ r = defaultRefusal n)) ∧
    (∀ f, exec (.ld rc ra lit) s ≠ .fault f ∧ exec (.st rc ra lit) s ≠ .fault f ∧ exec (.ldr rc ra lit) s ≠ .fault f)

/-- A load or a store at an address no storage backs, under an implementation's own MEM_MAP: its outcome for the state with the PC
advanced (log 37), the access and the word's address, whatever it is (00_scope.md R13, 20_memory.md R53, decision D15). Where it gives the access a meaning, the instruction completes: a load
writes the word given to Rc, a store writes no register, the PC advances, and the device's side effects are on memory and the pending requests alone
(log 13). -/
def Obligations.UnbackedAccessIsTheMemMapOutcome : Prop :=
  ∀ (s : State) (rc ra : Reg) (lit : Literal) (index : BitVec 30), s.cfg.unbacked = .implementation →
    let base := BitVec.ofInt 32 ((s.reg ra).toNat + lit.toInt)
    let relative := BitVec.ofInt 32 (((s.pc.toNat + 4) % 2 ^ 31 : Nat) + 4 * lit.toInt)
    (dataCell s.cfg base = .error (.unbacked index) →
      match Config.unbackedOutcome s.advance.view .read index with
      | none => exec (.ld rc ra lit) s = .refused .unbackedAccess
      | some e => ∃ t, exec (.ld rc ra lit) s = .next t ∧ RegsAfter s t rc e.value ∧ t.pc = nextPc s.pc ∧
          DeviceStores s t e.stores e.pending) ∧
    (dataCell s.cfg relative = .error (.unbacked index) →
      match Config.unbackedOutcome s.advance.view .read index with
      | none => exec (.ldr rc ra lit) s = .refused .unbackedAccess
      | some e => ∃ t, exec (.ldr rc ra lit) s = .next t ∧ RegsAfter s t rc e.value ∧ t.pc = nextPc s.pc ∧
          DeviceStores s t e.stores e.pending) ∧
    (dataCell s.cfg base = .error (.unbacked index) →
      match Config.unbackedOutcome s.advance.view (.write (s.reg rc)) index with
      | none => exec (.st rc ra lit) s = .refused .unbackedAccess
      | some e => ∃ t, exec (.st rc ra lit) s = .next t ∧ (∀ r, t.reg r = s.reg r) ∧ t.pc = nextPc s.pc ∧
          DeviceStores s t e.stores e.pending)

/-- A fetch at an address no storage backs is the read of an implementation's own MEM_MAP (20_memory.md R53, R57, decision D15; log 13): the word
it gives is the one decoded, and the instruction runs in the state after it. By default the step is refused. -/
def Obligations.UnbackedFetchIsTheMemMapOutcome : Prop :=
  ∀ (s : State) (index : BitVec 30), NoInterrupt s → s.pc.toNat % 4 = 0 →
    backedCell s.cfg (fetchAddress s.pc) = .error (.unbacked index) →
    (s.cfg.unbacked = .refuse → step s = .refused .unbackedAccess) ∧
    (s.cfg.unbacked = .implementation →
      match Config.unbackedOutcome s.sample.1.view .read index with
      | none => step s = .refused .unbackedAccess
      | some e => ∃ u, (∀ r, u.reg r = s.reg r) ∧ u.pc = s.pc ∧ DeviceStores s.sample.1 u e.stores e.pending ∧
          ∀ i, decodeWord s.cfg.hasMulDiv e.value = .ok i → step s = exec i u)

/-- What a data address that is no multiple of 4 reaches: nothing under the policy refuse, the word at the address with its low two bits cleared
under ignore_low_bits (20_memory.md R56, decision D2; log 15). -/
def Obligations.MisalignedAccessFollowsThePolicy : Prop :=
  ∀ (cfg : Config) (ea : Word), ea.toNat % 4 ≠ 0 →
    (cfg.misaligned = .refuse → dataCell cfg ea = .error .misaligned) ∧
    (cfg.misaligned = .ignoreLowBits → dataCell cfg ea = dataCell cfg (BitVec.ofNat 32 (ea.toNat / 4 * 4)))

/-- On the spec's default memory map every aligned word is reached at its own address, and fetch reaches the word at the 31 address bits; on any
map a word with a byte that is not backed is reached nowhere, and where the map is the default for it the access is refused (00_scope.md R13,
decision D15; log 13). -/
def Obligations.FlatMapReachesEveryAlignedWord : Prop :=
  (∀ (s : State) (ea : Word), s.cfg.backed = [⟨0, 2 ^ 32⟩] → s.cfg.aliasBit31 = false → ea.toNat % 4 = 0 →
    Reaches s ea ea.toNat) ∧
  (∀ s : State, s.cfg.backed = [⟨0, 2 ^ 32⟩] → s.cfg.aliasBit31 = false → s.pc.toNat % 4 = 0 →
    s.fetch = .ok (Memory.readWord s.cfg.byteOrder s.mem (s.pc.toNat % 2 ^ 31), s)) ∧
  (∀ (s : State) (ea : Word) (k : Nat), ea.toNat % 4 = 0 → k < 4 → cellBacked s.cfg (cellOf s.cfg ea + k) = false →
    dataCell s.cfg ea = .error (.unbacked (BitVec.ofNat 30 (cellOf s.cfg ea / 4))) ∧
    (s.cfg.unbacked = .refuse → s.memRead ea = .error .unbackedAccess ∧ ∀ v, s.memWrite ea v = .error .unbackedAccess))

/-- A load returns the latest store to the same word, and what was there before where the words differ, and changes nothing by the read
(20_memory.md R53, R62). -/
def Obligations.LoadReturnsTheLatestStore : Prop :=
  ∀ (s t : State) (rc ra : Reg) (lit : Literal) (ea : Word) (c d : Nat),
    exec (.st rc ra lit) s = .next t → Reaches s (s.baseAddress ra lit) c → Reaches t ea d →
    ∃ v, t.memRead ea = .ok (v, t) ∧ (d = c → v = s.reg rc) ∧ (d ≠ c → s.memRead ea = .ok (v, s))

/-- A store to the very next instruction is seen by its fetch (20_memory.md R65, decision D18; log 24). -/
def Obligations.StoreIsSeenByTheNextFetch : Prop :=
  ∀ (s t : State) (rc ra : Reg) (lit : Literal) (c : Nat),
    s.pc.toNat % 4 = 0 → exec (.st rc ra lit) s = .next t → Reaches s (s.baseAddress ra lit) c →
    backedCell s.cfg (fetchAddress (nextPc s.pc)) = .ok c → t.fetch = .ok (s.reg rc, t)

/-- Byte order as the spec takes it (20_memory.md R55, decision D1; log 14): the byte at the lowest address holds bits 7:0 in the little order and
bits 31:24 in the big one, and a word's bytes put together are the word. -/
def Obligations.ByteOrderOfAWord : Prop :=
  ∀ w : Word,
    (∀ k < 4, (byteOfWord .little w k).toNat = w.toNat / 2 ^ (8 * k) % 2 ^ 8) ∧
    (∀ k < 4, (byteOfWord .big w k).toNat = w.toNat / 2 ^ (8 * (3 - k)) % 2 ^ 8) ∧
    ∀ order, ∃ b0 b1 b2 b3, bytesOfWord order w = [b0, b1, b2, b3] ∧ wordOfBytes order b0 b1 b2 b3 = w

/-- The instruction set cannot observe the byte order (20_memory.md R55): a little-endian and a big-endian machine with the same aligned words take
the same step, and have the same aligned words after it. This covers the steps in which the implementation's own PRIV_EXEC, SUPERVISOR_FAULT or
MEM_MAP acts, and for these it is no rule of the spec: that they see and store the memory by aligned words only (ArchView.word) is the model's
choice (logs 11, 12 and 13), while R55 says that the byte order does matter to whoever shares memory with a device. -/
def Obligations.ByteOrderIsUnobservable : Prop :=
  ∀ s t : State, SameWords s t → SameOutcome SameWords (step s) (step t)

/-- 20_memory.md R52: only LD, LDR and ST touch data memory. Any other instruction, and exception entry, leaves the memory as it is and does the
same whatever the memory holds. An instruction that the implementation's own PRIV_EXEC or SUPERVISOR_FAULT stands for is not one of these: such a
device may touch memory (R67; logs 11 and 12). -/
def Obligations.OnlyLoadsAndStoreTouchMemory : Prop :=
  (∀ (i : Instr) (s t : State) (m : Memory), touchesMemory i = false → ¬ ParameterActs i s → exec i s = .next t →
    t.mem = s.mem ∧ exec i { s with mem := m } = .next { t with mem := m }) ∧
  (∀ (s : State) (v : VectorIndex) (m : Memory),
    (s.enterException v).mem = s.mem ∧ State.enterException { s with mem := m } v = { s.enterException v with mem := m })

/-- Over all steps: the memory reads as before unless the instruction run is ST, and then only the four bytes of its word change
(20_memory.md R52, R54), or the implementation's own PRIV_EXEC, SUPERVISOR_FAULT or MEM_MAP acts (R67; logs 11, 12 and 13). -/
def Obligations.StepChangesMemoryOnlyByStore : Prop :=
  ∀ s t : State, step s = .next t →
    SameMemory s t ∨ StepParameterActs s ∨ StepUnbackedActs s ∨
    ∃ w u rc ra lit c, s.sample.1.fetch = .ok (w, u) ∧ decodeWord s.cfg.hasMulDiv w = .ok (.st rc ra lit) ∧ Reaches s (s.baseAddress ra lit) c ∧
      StoredWord s t c (s.reg rc)

/-! Encoding and the step -/

/-- Decoding an encoded instruction gives it back, every field at every value, the idle fields too, on a machine that has its opcode; on one that
lacks it, it is illegal (30_encoding.md R89, R93, R95). -/
def Obligations.DecodeOfEncodeIsTheInstruction : Prop :=
  ∀ (hasMulDiv : Bool) (i : Instr), decodeWord hasMulDiv (encode i) =
    if hasMulDiv = false ∧ i.opcode ∈ optionalOpcodes then .error (.illegalOpcode i.opcode) else .ok i

/-- Encoding what a word decodes to gives the word back: decoding drops no bit. -/
def Obligations.EncodeOfDecodeIsTheWord : Prop :=
  ∀ (hasMulDiv : Bool) (w : Word) (i : Instr), decodeWord hasMulDiv w = .ok i → encode i = w

/-- The decoder is total and the opcode alone selects (30_encoding.md R89, an inference of the spec): a word decodes to an instruction of its
opcode, or its opcode is unassigned on that machine and it is illegal by that name: one of the 29 (R93, decision D7; log 20), or one of the four
optional ones where HAS_MULDIV is false (R95). -/
def Obligations.OpcodeAloneSelects : Prop :=
  ∀ (hasMulDiv : Bool) (w : Word),
    (opcodeOf w ∉ unassignedOpcodes hasMulDiv → ∃ i, decodeWord hasMulDiv w = .ok i ∧ i.opcode = opcodeOf w) ∧
    (opcodeOf w ∈ unassignedOpcodes hasMulDiv → decodeWord hasMulDiv w = .error (.illegalOpcode (opcodeOf w)))

/-- The idle fields have no effect (30_encoding.md R90, R91, decision D6; R92; log 19). -/
def Obligations.IdleFieldsHaveNoEffect : Prop :=
  ∀ (s : State) (rc ra rb ra' : Reg) (u u' : BitVec 11) (l l' : Literal),
    exec (.add rc ra rb u) s = exec (.add rc ra rb u') s ∧ exec (.sub rc ra rb u) s = exec (.sub rc ra rb u') s ∧
    exec (.mul rc ra rb u) s = exec (.mul rc ra rb u') s ∧ exec (.div rc ra rb u) s = exec (.div rc ra rb u') s ∧
    exec (.cmpeq rc ra rb u) s = exec (.cmpeq rc ra rb u') s ∧ exec (.cmplt rc ra rb u) s = exec (.cmplt rc ra rb u') s ∧
    exec (.cmple rc ra rb u) s = exec (.cmple rc ra rb u') s ∧ exec (.and rc ra rb u) s = exec (.and rc ra rb u') s ∧
    exec (.or rc ra rb u) s = exec (.or rc ra rb u') s ∧ exec (.xor rc ra rb u) s = exec (.xor rc ra rb u') s ∧
    exec (.xnor rc ra rb u) s = exec (.xnor rc ra rb u') s ∧ exec (.shl rc ra rb u) s = exec (.shl rc ra rb u') s ∧
    exec (.shr rc ra rb u) s = exec (.shr rc ra rb u') s ∧ exec (.sra rc ra rb u) s = exec (.sra rc ra rb u') s ∧
    exec (.jmp rc ra l) s = exec (.jmp rc ra l') s ∧ exec (.ldr rc ra l) s = exec (.ldr rc ra' l) s

/-- Words written out from the encodings of 30_encoding.md R81, R82, R94 decode to the instructions they stand for,
and the word of MUL to illegal on a machine without it (R95). -/
def Obligations.SampleWordsDecode : Prop :=
  decodeWord true 0b10000000011000010001000000000000 = .ok (.add 3 1 2 0) ∧
  decodeWord true 0b11000000011000011111111111111111 = .ok (.addc 3 1 (-1)) ∧
  decodeWord true 0b01100100010000010000000000001000 = .ok (.st 2 1 8) ∧
  decodeWord true 0b01101111111111000000000000000000 = .ok (.jmp 31 28 0) ∧
  decodeWord true 0b01110011111000010000000000000011 = .ok (.beq 31 1 3) ∧
  decodeWord true 0b01111100000111110000000000000010 = .ok (.ldr 0 31 2) ∧
  decodeWord true 0 = .ok (.priv 0) ∧
  decodeWord true 0b10001000011000010001000000000000 = .ok (.mul 3 1 2 0) ∧
  decodeWord false 0b10001000011000010001000000000000 = .error (.illegalOpcode 0b100010)

/-- A step runs the decoded instruction: where no interrupt is taken and the word fetched is that of an instruction, the step is that instruction's
meaning at the state after the fetch (60_exceptions.md R296); where the four bytes at the PC's 31 address bits are storage, those are the word, and
that state is the one with the environment's input sampled. Sampling takes the next input off the list and its requests as those pending (log 9), and
changes nothing else. -/
def Obligations.StepRunsTheDecodedInstruction : Prop :=
  (∀ s : State, s.sample.1 =
    { s with pending := ((s.env.head?).map Boundary.pending).getD s.pending, env := s.env.tail }) ∧
  (∀ (s u : State) (w : Word) (i : Instr), NoInterrupt s → s.sample.1.fetch = .ok (w, u) →
    decodeWord s.cfg.hasMulDiv w = .ok i → step s = exec i u) ∧
  ∀ (s : State) (c : Nat) (i : Instr), NoInterrupt s → s.pc.toNat % 4 = 0 →
    backedCell s.cfg (fetchAddress s.pc) = .ok c →
    decodeBytes s.cfg.byteOrder s.cfg.hasMulDiv
      [s.byteAt c, s.byteAt (c + 1), s.byteAt (c + 2), s.byteAt (c + 3)] = .ok i →
    step s = exec i s.sample.1

/-! The end of a run -/

/-- The end of a run (70_reset_and_hazards.md R322, decision D20; log 32): it is where the PC's address is the designated one and the word fetched
there is 0x73FFFFFF, and there, where no interrupt is taken, the step changes nothing but what the fetch does, the branch to itself: from storage,
nothing but that the environment's input is sampled. -/
def Obligations.EndOfRunIsABranchToItself : Prop :=
  ∀ (s : State) (address : Word),
    (s.atEnd address = true ↔ fetchAddress s.pc = address ∧ ∃ u, s.sample.1.fetch = .ok (0x73FFFFFF, u)) ∧
    (∀ u, s.sample.1.fetch = .ok (0x73FFFFFF, u) → NoInterrupt s → step s = .next u) ∧
    (∀ c, s.atEnd address = true → NoInterrupt s → backedCell s.cfg (fetchAddress s.pc) = .ok c → step s = .next s.sample.1)

/-- A run until a designated address ends in the state reached at the first arrival there, and nowhere else; where handlers are no part of the run,
no interrupt is taken on the way (70_reset_and_hazards.md R322, decision D20; log 32). -/
def Obligations.RunUntilIsTheFirstArrival : Prop :=
  ∀ (handlers : Handlers) (address : Word) (s t : State),
    (∃ k, runUntil handlers address k s = .ended t) ↔
    ∃ j, RunsTo j s t ∧ t.atEnd address = true ∧
      ∀ i < j, ∀ u, RunsTo i s u → u.atEnd address = false ∧ (handlers = .excluded → NoInterrupt u)

/-! The assembler level -/

/-- The literal an assembler computes for a label (30_encoding.md R100, R101, decision D22; log 33): it exists exactly for word offsets -32767 to
+32768 from the branch, and a branch with it goes to the label. -/
def Obligations.BranchLiteralReachesTheLabel : Prop :=
  (∀ (here label : Int) (lit : Literal), Asm.branchLiteral? here label = some lit ↔
    (label - here) % 4 = 0 ∧ -32767 ≤ (label - here) / 4 ∧ (label - here) / 4 ≤ 32768 ∧ lit.toInt = (label - here) / 4 - 1) ∧
  (∀ (pc : Word) (label : Nat) (lit : Literal), label < 2 ^ 31 →
    Asm.branchLiteral? (pc.toNat % 2 ^ 31 : Nat) label = some lit →
    (branchTarget (nextPc pc) lit).toNat = pc.toNat / 2 ^ 31 * 2 ^ 31 + label)

/-- PUSH of a register other than SP stores it at the old SP and adds 4 to SP (47_macros_conventions.md R251, whose second instruction is from
general knowledge, G2; log 30). -/
def Obligations.PushStoresAtTheOldTop : Prop :=
  ∀ (s : State) (ra : Reg) (c : Nat), ra ≠ Asm.SP → Reaches s (s.reg Asm.SP) c →
    ∃ t, execAll (Asm.pushCode ra) s = .next t ∧ StoredWord s t c (s.reg ra) ∧ RegsAfter s t Asm.SP (s.reg Asm.SP + 4) ∧
      t.pc = nextPc (nextPc s.pc) ∧ SameEnvironment s t

/-- POP into a register other than SP loads the word below the old SP and subtracts 4 from SP (47_macros_conventions.md R252, G2; log 30). -/
def Obligations.PopLoadsTheTop : Prop :=
  ∀ (s : State) (rc : Reg) (c : Nat), rc ≠ Asm.SP → Reaches s (s.reg Asm.SP - 4) c →
    ∃ t, execAll (Asm.popCode rc) s = .next t ∧
      (∀ r : Reg, t.reg r = if r = 31 then 0 else if r = Asm.SP then s.reg Asm.SP - 4
        else if r = rc then Memory.readWord s.cfg.byteOrder s.mem c else s.reg r) ∧
      t.pc = nextPc (nextPc s.pc) ∧ SameMemory s t ∧ SameEnvironment s t
end

