-- ==== Sys2Proof/Laws/Decode.lean ====
section
/-! SUPPORT. The fields of a word and of a packed word (spec/30_encoding.md R81, R82): what the decoder and the encoder rest on. -/

namespace Sys2Proof

/-- A packed Without-Literal word, bit by bit from its fields, as a number. -/
theorem toNat_packOperate (op : BitVec 6) (rc ra rb : Reg) (u : BitVec 11) :
    (packOperate op rc ra rb u).toNat =
      op.toNat * 2 ^ 26 + rc.toNat * 2 ^ 21 + ra.toNat * 2 ^ 16 + rb.toNat * 2 ^ 11 + u.toNat := by
  simp only [packOperate, BitVec.toNat_append]
  rw [← Nat.shiftLeft_add_eq_or_of_lt u.isLt, ← Nat.shiftLeft_add_eq_or_of_lt rb.isLt, ← Nat.shiftLeft_add_eq_or_of_lt ra.isLt,
    ← Nat.shiftLeft_add_eq_or_of_lt rc.isLt]
  simp only [Nat.shiftLeft_eq]
  omega

/-- A packed With-Literal word as a number. -/
theorem toNat_packLiteral (op : BitVec 6) (rc ra : Reg) (lit : Literal) :
    (packLiteral op rc ra lit).toNat = op.toNat * 2 ^ 26 + rc.toNat * 2 ^ 21 + ra.toNat * 2 ^ 16 + lit.toNat := by
  simp only [packLiteral, BitVec.toNat_append]
  rw [← Nat.shiftLeft_add_eq_or_of_lt lit.isLt, ← Nat.shiftLeft_add_eq_or_of_lt ra.isLt, ← Nat.shiftLeft_add_eq_or_of_lt rc.isLt]
  simp only [Nat.shiftLeft_eq]
  omega

/-- A privileged word as a number. -/
theorem toNat_packBody (op : BitVec 6) (body : BitVec 26) :
    ((op ++ body : BitVec (6 + 26)) : Word).toNat = op.toNat * 2 ^ 26 + body.toNat := by
  simp only [BitVec.toNat_append]
  rw [← Nat.shiftLeft_add_eq_or_of_lt body.isLt, Nat.shiftLeft_eq]

theorem toNat_opcodeOf (w : Word) : (opcodeOf w).toNat = w.toNat / 2 ^ 26 := by
  have := w.isLt
  simp only [opcodeOf, BitVec.extractLsb'_toNat, Nat.shiftRight_eq_div_pow]; omega
theorem toNat_rcOf (w : Word) : (rcOf w).toNat = w.toNat / 2 ^ 21 % 2 ^ 5 := by
  simp only [rcOf, BitVec.extractLsb'_toNat, Nat.shiftRight_eq_div_pow]
theorem toNat_raOf (w : Word) : (raOf w).toNat = w.toNat / 2 ^ 16 % 2 ^ 5 := by
  simp only [raOf, BitVec.extractLsb'_toNat, Nat.shiftRight_eq_div_pow]
theorem toNat_rbOf (w : Word) : (rbOf w).toNat = w.toNat / 2 ^ 11 % 2 ^ 5 := by
  simp only [rbOf, BitVec.extractLsb'_toNat, Nat.shiftRight_eq_div_pow]
theorem toNat_litOf (w : Word) : (litOf w).toNat = w.toNat % 2 ^ 16 := by
  simp only [litOf, BitVec.extractLsb'_toNat, Nat.shiftRight_zero]
theorem toNat_unusedOf (w : Word) : (unusedOf w).toNat = w.toNat % 2 ^ 11 := by
  simp only [unusedOf, BitVec.extractLsb'_toNat, Nat.shiftRight_zero]
theorem toNat_bodyOf (w : Word) : (bodyOf w).toNat = w.toNat % 2 ^ 26 := by
  simp only [bodyOf, BitVec.extractLsb'_toNat, Nat.shiftRight_zero]

/-- The five fields of a packed Without-Literal word. -/
theorem fields_packOperate (op : BitVec 6) (rc ra rb : Reg) (u : BitVec 11) :
    opcodeOf (packOperate op rc ra rb u) = op ∧ rcOf (packOperate op rc ra rb u) = rc ∧
    raOf (packOperate op rc ra rb u) = ra ∧ rbOf (packOperate op rc ra rb u) = rb ∧
    unusedOf (packOperate op rc ra rb u) = u := by
  have := op.isLt; have := rc.isLt; have := ra.isLt; have := rb.isLt; have := u.isLt
  refine ⟨?_, ?_, ?_, ?_, ?_⟩ <;> refine BitVec.eq_of_toNat_eq ?_ <;>
    simp only [toNat_opcodeOf, toNat_rcOf, toNat_raOf, toNat_rbOf, toNat_unusedOf, toNat_packOperate] <;> omega

/-- The four fields of a packed With-Literal word. -/
theorem fields_packLiteral (op : BitVec 6) (rc ra : Reg) (lit : Literal) :
    opcodeOf (packLiteral op rc ra lit) = op ∧ rcOf (packLiteral op rc ra lit) = rc ∧
    raOf (packLiteral op rc ra lit) = ra ∧ litOf (packLiteral op rc ra lit) = lit := by
  have := op.isLt; have := rc.isLt; have := ra.isLt; have := lit.isLt
  refine ⟨?_, ?_, ?_, ?_⟩ <;> refine BitVec.eq_of_toNat_eq ?_ <;>
    simp only [toNat_opcodeOf, toNat_rcOf, toNat_raOf, toNat_litOf, toNat_packLiteral] <;> omega

/-- The two fields of a privileged word. -/
theorem fields_packBody (op : BitVec 6) (body : BitVec 26) :
    opcodeOf (op ++ body) = op ∧ bodyOf (op ++ body) = body := by
  have := op.isLt; have := body.isLt
  refine ⟨?_, ?_⟩ <;> refine BitVec.eq_of_toNat_eq ?_ <;>
    simp only [toNat_opcodeOf, toNat_bodyOf, toNat_packBody] <;> omega

/-- A word is its Without-Literal fields packed. -/
theorem packOperate_eta (w : Word) : packOperate (opcodeOf w) (rcOf w) (raOf w) (rbOf w) (unusedOf w) = w := by
  refine BitVec.eq_of_toNat_eq ?_
  simp only [toNat_packOperate, toNat_opcodeOf, toNat_rcOf, toNat_raOf, toNat_rbOf, toNat_unusedOf]; omega

/-- A word is its With-Literal fields packed. -/
theorem packLiteral_eta (w : Word) : packLiteral (opcodeOf w) (rcOf w) (raOf w) (litOf w) = w := by
  refine BitVec.eq_of_toNat_eq ?_
  simp only [toNat_packLiteral, toNat_opcodeOf, toNat_rcOf, toNat_raOf, toNat_litOf]; omega

/-- A word is its opcode and its body. -/
theorem packBody_eta (w : Word) : (opcodeOf w ++ bodyOf w : BitVec (6 + 26)) = w := by
  refine BitVec.eq_of_toNat_eq ?_
  rw [toNat_packBody, toNat_opcodeOf, toNat_bodyOf]; omega

end Sys2Proof
end

