-- ==== Sys2Proof/Laws/Opcodes.lean ====
section
/-! SUPPORT. The 64 opcodes, case by case (spec/30_encoding.md R87, R93), and words rebuilt from their fields under a known opcode. -/

namespace Sys2Proof.Machine

/-- Every opcode is blank or one of the 35 of the table. -/
theorem opcode_cases (op : BitVec 6) :
    op ∈ blankOpcodes ∨ op = 0x00 ∨
    (op = 0x18 ∨ op = 0x19 ∨ op = 0x1B ∨ op = 0x1C ∨ op = 0x1D ∨ op = 0x1F) ∨
    (op = 0x20 ∨ op = 0x21 ∨ op = 0x22 ∨ op = 0x23 ∨ op = 0x24 ∨ op = 0x25 ∨ op = 0x26 ∨ op = 0x28 ∨ op = 0x29 ∨ op = 0x2A ∨
      op = 0x2B ∨ op = 0x2C ∨ op = 0x2D ∨ op = 0x2E) ∨
    (op = 0x30 ∨ op = 0x31 ∨ op = 0x32 ∨ op = 0x33 ∨ op = 0x34 ∨ op = 0x35 ∨ op = 0x36 ∨ op = 0x38 ∨ op = 0x39 ∨ op = 0x3A ∨
      op = 0x3B ∨ op = 0x3C ∨ op = 0x3D ∨ op = 0x3E) := by
  revert op; decide

theorem packLiteral_of_opcode (w : Word) (op : BitVec 6) (h : opcodeOf w = op) :
    packLiteral op (rcOf w) (raOf w) (litOf w) = w := by
  rw [← h]; exact packLiteral_eta w

theorem packOperate_of_opcode (w : Word) (op : BitVec 6) (h : opcodeOf w = op) :
    packOperate op (rcOf w) (raOf w) (rbOf w) (unusedOf w) = w := by
  rw [← h]; exact packOperate_eta w

theorem packBody_of_opcode (w : Word) (op : BitVec 6) (h : opcodeOf w = op) : (op ++ bodyOf w : BitVec (6 + 26)) = w := by
  rw [← h]; exact packBody_eta w

/-- A word of a blank opcode is illegal on every machine, and every other is not where the machine has the optional opcodes. -/
theorem decodeAssigned_error (w : Word) (e : DecodeError) (h : decodeAssigned w = .error e) : opcodeOf w ∈ blankOpcodes := by
  unfold decodeAssigned at h
  rcases opcode_cases (opcodeOf w) with ho | ho | ho | ho | ho
  · exact ho
  · rw [ho] at h; cases h
  · rcases ho with ho | ho | ho | ho | ho | ho <;> rw [ho] at h <;> cases h
  · rcases ho with ho | ho | ho | ho | ho | ho | ho | ho | ho | ho | ho | ho | ho | ho <;> rw [ho] at h <;> cases h
  · rcases ho with ho | ho | ho | ho | ho | ho | ho | ho | ho | ho | ho | ho | ho | ho <;> rw [ho] at h <;> cases h

/-- The decoder is the opcode map where the machine has the word's opcode (30_encoding.md R89). -/
theorem decodeWord_of_present (hasMulDiv : Bool) (w : Word) (h : hasMulDiv = true ∨ opcodeOf w ∉ optionalOpcodes) :
    decodeWord hasMulDiv w = decodeAssigned w := by
  unfold decodeWord
  rw [if_neg]
  rcases h with rfl | h <;> simp_all

/-- On a machine without the optional opcodes their words are illegal (30_encoding.md R93, R95). -/
theorem decodeWord_of_lacking (w : Word) (h : opcodeOf w ∈ optionalOpcodes) :
    decodeWord false w = .error (.illegalOpcode (opcodeOf w)) := by
  simp [decodeWord, h]

/-- A word decodes to an instruction only by the opcode map, and only where the machine has its opcode. -/
theorem decodeWord_ok {hasMulDiv : Bool} {w : Word} {i : Instr} (h : decodeWord hasMulDiv w = .ok i) :
    decodeAssigned w = .ok i ∧ (hasMulDiv = true ∨ opcodeOf w ∉ optionalOpcodes) := by
  unfold decodeWord at h
  split at h
  · cases h
  · refine ⟨h, ?_⟩
    cases hasMulDiv <;> simp_all

/-- A word that decodes to no instruction has an opcode unassigned on that machine. -/
theorem decodeWord_error (hasMulDiv : Bool) (w : Word) (e : DecodeError) (h : decodeWord hasMulDiv w = .error e) :
    opcodeOf w ∈ unassignedOpcodes hasMulDiv := by
  unfold decodeWord at h
  split at h
  · cases hasMulDiv <;> simp_all [unassignedOpcodes]
  · have := decodeAssigned_error w e h
    cases hasMulDiv <;> simp_all [unassignedOpcodes]

end Sys2Proof.Machine
end

