-- ==== Sys2Proof/Laws/Memory.lean ====
section
/-! SUPPORT. What the memory operations do: read after write, and the canonical form is kept. -/

namespace Sys2Proof.Machine

/-- A read after a write of one byte (20_memory.md R53, R54). -/
theorem read?_write (m : Memory) (a : Nat) (v : Byte) (b : Nat) :
    Memory.read? (Memory.write m a v) b = if b = a then some v else Memory.read? m b := by
  induction m with
  | nil => simp only [Memory.write, Memory.read?, eq_comm]
  | cons entry rest ih =>
    obtain ⟨k, w⟩ := entry
    unfold Memory.write
    split
    · simp only [Memory.read?, eq_comm]
    · split
      · subst_vars
        by_cases h : b = k
        · simp [Memory.read?, h]
        · simp [Memory.read?, h, Ne.symm h]
      · by_cases h : b = k
        · subst h
          rename_i h1 h2
          simp [Memory.read?, Ne.symm h2]
        · simp [Memory.read?, Ne.symm h, ih]

/-- The byte at an address after a write of one byte. -/
theorem byte_write (m : Memory) (a : Nat) (v : Byte) (b : Nat) :
    Memory.byte (Memory.write m a v) b = if b = a then v else Memory.byte m b := by
  unfold Memory.byte
  rw [read?_write]
  split <;> simp_all

/-- A write at or above the bound keeps the addresses rising from it. -/
theorem wfFrom_write (m : Memory) (lo a : Nat) (v : Byte) (hlo : lo ≤ a) (ha : a < 2 ^ 32)
    (h : Memory.wfFrom lo m = true) : Memory.wfFrom lo (Memory.write m a v) = true := by
  induction m generalizing lo with
  | nil => simp [Memory.write, Memory.wfFrom, hlo]; omega
  | cons entry rest ih =>
    obtain ⟨k, w⟩ := entry
    simp only [Memory.wfFrom, Bool.and_eq_true, decide_eq_true_eq] at h
    obtain ⟨⟨hk, hk32⟩, hrest⟩ := h
    unfold Memory.write
    split
    · simp only [Memory.wfFrom, Bool.and_eq_true, decide_eq_true_eq]
      exact ⟨⟨hlo, ha⟩, ⟨by omega, hk32⟩, hrest⟩
    · split
      · subst_vars
        simp only [Memory.wfFrom, Bool.and_eq_true, decide_eq_true_eq]
        exact ⟨⟨hk, hk32⟩, hrest⟩
      · simp only [Memory.wfFrom, Bool.and_eq_true, decide_eq_true_eq]
        exact ⟨⟨hk, hk32⟩, ih (k + 1) (by omega) hrest⟩

/-- A write of one byte inside the address space keeps the canonical form. -/
theorem wf_write (m : Memory) (a : Nat) (v : Byte) (ha : a < 2 ^ 32) (h : Memory.wf m = true) :
    Memory.wf (Memory.write m a v) = true :=
  wfFrom_write m 0 a v (Nat.zero_le a) ha h

/-- A write of a word whose four bytes are inside the address space keeps the canonical form. -/
theorem wf_writeWord (order : ByteOrder) (m : Memory) (a : Nat) (v : Word) (ha : a + 3 < 2 ^ 32)
    (h : Memory.wf m = true) : Memory.wf (Memory.writeWord order m a v) = true := by
  unfold Memory.writeWord
  exact wf_write _ _ _ ha (wf_write _ _ _ (by omega) (wf_write _ _ _ (by omega) (wf_write _ _ _ (by omega) h)))

/-- The byte at an address after a write of a word: one of the word's four bytes, or the byte before (20_memory.md R54). -/
theorem byte_writeWord (order : ByteOrder) (m : Memory) (c : Nat) (v : Word) (a : Nat) :
    Memory.byte (Memory.writeWord order m c v) a =
      if c ≤ a ∧ a < c + 4 then byteOfWord order v (a - c) else Memory.byte m a := by
  unfold Memory.writeWord
  simp only [byte_write]
  by_cases h : c ≤ a ∧ a < c + 4
  · have : a = c ∨ a = c + 1 ∨ a = c + 2 ∨ a = c + 3 := by omega
    rcases this with rfl | rfl | rfl | rfl <;> simp
  · rw [if_neg h, if_neg (by omega), if_neg (by omega), if_neg (by omega), if_neg (by omega)]

/-- The bytes of a word, put together again, are the word (20_memory.md R55). -/
theorem wordOfBytes_byteOfWord (order : ByteOrder) (w : Word) :
    wordOfBytes order (byteOfWord order w 0) (byteOfWord order w 1) (byteOfWord order w 2) (byteOfWord order w 3) = w := by
  cases order <;>
  · refine BitVec.eq_of_getLsbD_eq fun i hi => ?_
    simp only [wordOfBytes, byteOfWord, BitVec.getLsbD_append, BitVec.getLsbD_extractLsb']
    repeat' split
    all_goals (rw [show decide (_ < 8) = true from decide_eq_true (by omega), Bool.true_and]; congr 1; omega)

/-- A word read at the cell a word was just written at is that word. -/
theorem readWord_writeWord_same (order : ByteOrder) (m : Memory) (c : Nat) (v : Word) :
    Memory.readWord order (Memory.writeWord order m c v) c = v := by
  simp [Memory.readWord, byte_writeWord, wordOfBytes_byteOfWord]

/-- A word read at cells apart from those just written is the word there before. -/
theorem readWord_writeWord_other (order : ByteOrder) (m : Memory) (c d : Nat) (v : Word) (h : d + 4 ≤ c ∨ c + 4 ≤ d) :
    Memory.readWord order (Memory.writeWord order m c v) d = Memory.readWord order m d := by
  have hb : ∀ k, k < 4 → Memory.byte (Memory.writeWord order m c v) (d + k) = Memory.byte m (d + k) := by
    intro k hk
    rw [byte_writeWord, if_neg (by omega)]
  unfold Memory.readWord
  rw [hb 1 (by omega), hb 2 (by omega), hb 3 (by omega), show Memory.byte (Memory.writeWord order m c v) d = Memory.byte m d from hb 0 (by omega)]

/-- A word read at one aligned place after a word is written at another or the same. -/
theorem readWord_writeWord_index (order : ByteOrder) (m : Memory) (i j : BitVec 30) (v : Word) :
    Memory.readWord order (Memory.writeWord order m (4 * j.toNat) v) (4 * i.toNat) =
      if j = i then v else Memory.readWord order m (4 * i.toNat) := by
  split
  · subst_vars; exact readWord_writeWord_same _ _ _ _
  · rename_i h
    have : j.toNat ≠ i.toNat := fun e => h (BitVec.eq_of_toNat_eq e)
    exact readWord_writeWord_other _ _ _ _ _ (by omega)

/-- Words stored one after another keep the canonical form. -/
theorem wf_writeWords (order : ByteOrder) (stores : List (BitVec 30 × Word)) :
    ∀ m : Memory, Memory.wf m = true → Memory.wf (Memory.writeWords order m stores) = true := by
  induction stores with
  | nil => intro m h; exact h
  | cons entry rest ih =>
    intro m h
    have := entry.1.isLt
    exact ih _ (wf_writeWord _ _ _ _ (by omega) h)

end Sys2Proof.Machine
end

