-- ==== Sys2Proof/Laws/State.lean ====
section
/-! SUPPORT. One lemma per field per update of State, so that no later proof unfolds a record update. -/

namespace Sys2Proof.Machine

@[simp] theorem powerUp_pc (regs : Vector Word 31) (mem : Memory) (pending : List IrqSource) (env : List Boundary) (cfg : Config) :
    (State.powerUp regs mem pending env cfg).pc = 0x80000000#32 := rfl
@[simp] theorem powerUp_regs (regs : Vector Word 31) (mem : Memory) (pending : List IrqSource) (env : List Boundary) (cfg : Config) :
    (State.powerUp regs mem pending env cfg).regs = regs := rfl
@[simp] theorem powerUp_mem (regs : Vector Word 31) (mem : Memory) (pending : List IrqSource) (env : List Boundary) (cfg : Config) :
    (State.powerUp regs mem pending env cfg).mem = mem := rfl
@[simp] theorem powerUp_pending (regs : Vector Word 31) (mem : Memory) (pending : List IrqSource) (env : List Boundary) (cfg : Config) :
    (State.powerUp regs mem pending env cfg).pending = pending := rfl
@[simp] theorem powerUp_cfg (regs : Vector Word 31) (mem : Memory) (pending : List IrqSource) (env : List Boundary) (cfg : Config) :
    (State.powerUp regs mem pending env cfg).cfg = cfg := rfl

@[simp] theorem setPc_pc (s : State) (p : Word) : (s.setPc p).pc = p := rfl
@[simp] theorem setPc_regs (s : State) (p : Word) : (s.setPc p).regs = s.regs := rfl
@[simp] theorem setPc_mem (s : State) (p : Word) : (s.setPc p).mem = s.mem := rfl
@[simp] theorem setPc_pending (s : State) (p : Word) : (s.setPc p).pending = s.pending := rfl
@[simp] theorem setPc_env (s : State) (p : Word) : (s.setPc p).env = s.env := rfl
@[simp] theorem setPc_cfg (s : State) (p : Word) : (s.setPc p).cfg = s.cfg := rfl
@[simp] theorem setPc_reg (s : State) (p : Word) (r : Reg) : (s.setPc p).reg r = s.reg r := rfl
@[simp] theorem setPc_byteAt (s : State) (p : Word) (a : Nat) : (s.setPc p).byteAt a = s.byteAt a := rfl

@[simp] theorem advance_pc (s : State) : s.advance.pc = nextPc s.pc := rfl
@[simp] theorem advance_mem (s : State) : s.advance.mem = s.mem := rfl
@[simp] theorem advance_pending (s : State) : s.advance.pending = s.pending := rfl
@[simp] theorem advance_env (s : State) : s.advance.env = s.env := rfl
@[simp] theorem advance_cfg (s : State) : s.advance.cfg = s.cfg := rfl
@[simp] theorem advance_reg (s : State) (r : Reg) : s.advance.reg r = s.reg r := rfl
@[simp] theorem advance_byteAt (s : State) (a : Nat) : s.advance.byteAt a = s.byteAt a := rfl

/-- A register write changes the register file or nothing (R21). -/
theorem setReg_eq (s : State) (r : Reg) (v : Word) : ∃ regs, s.setReg r v = { s with regs := regs } := by
  unfold State.setReg
  split
  · exact ⟨_, rfl⟩
  · exact ⟨s.regs, rfl⟩

@[simp] theorem setReg_pc (s : State) (r : Reg) (v : Word) : (s.setReg r v).pc = s.pc := by
  obtain ⟨_, h⟩ := setReg_eq s r v; rw [h]
@[simp] theorem setReg_mem (s : State) (r : Reg) (v : Word) : (s.setReg r v).mem = s.mem := by
  obtain ⟨_, h⟩ := setReg_eq s r v; rw [h]
@[simp] theorem setReg_pending (s : State) (r : Reg) (v : Word) : (s.setReg r v).pending = s.pending := by
  obtain ⟨_, h⟩ := setReg_eq s r v; rw [h]
@[simp] theorem setReg_env (s : State) (r : Reg) (v : Word) : (s.setReg r v).env = s.env := by
  obtain ⟨_, h⟩ := setReg_eq s r v; rw [h]
@[simp] theorem setReg_cfg (s : State) (r : Reg) (v : Word) : (s.setReg r v).cfg = s.cfg := by
  obtain ⟨_, h⟩ := setReg_eq s r v; rw [h]
@[simp] theorem setReg_byteAt (s : State) (r : Reg) (v : Word) (a : Nat) : (s.setReg r v).byteAt a = s.byteAt a := by
  simp only [State.byteAt, setReg_mem]

@[simp] theorem withMem_pc (s : State) (m : Memory) : ({ s with mem := m } : State).pc = s.pc := rfl
@[simp] theorem withMem_cfg (s : State) (m : Memory) : ({ s with mem := m } : State).cfg = s.cfg := rfl
@[simp] theorem withMem_reg (s : State) (m : Memory) (r : Reg) : ({ s with mem := m } : State).reg r = s.reg r := rfl
@[simp] theorem withMem_byteAt (s : State) (m : Memory) (a : Nat) : ({ s with mem := m } : State).byteAt a = Memory.byte m a := rfl

@[simp] theorem applyEffect_regs (s : State) (e : ArchEffect) : (s.applyEffect e).regs = e.regs := rfl
@[simp] theorem applyEffect_mem (s : State) (e : ArchEffect) :
    (s.applyEffect e).mem = Memory.writeWords s.cfg.byteOrder s.mem e.stores := rfl
@[simp] theorem applyEffect_pending (s : State) (e : ArchEffect) : (s.applyEffect e).pending = e.pending := rfl
@[simp] theorem applyEffect_env (s : State) (e : ArchEffect) : (s.applyEffect e).env = s.env := rfl
@[simp] theorem applyEffect_cfg (s : State) (e : ArchEffect) : (s.applyEffect e).cfg = s.cfg := rfl

@[simp] theorem afterAccess_regs (s : State) (e : AccessEffect) : (s.afterAccess e).regs = s.regs := rfl
@[simp] theorem afterAccess_reg (s : State) (e : AccessEffect) (r : Reg) : (s.afterAccess e).reg r = s.reg r := rfl
@[simp] theorem afterAccess_pc (s : State) (e : AccessEffect) : (s.afterAccess e).pc = s.pc := rfl
@[simp] theorem afterAccess_mem (s : State) (e : AccessEffect) :
    (s.afterAccess e).mem = Memory.writeWords s.cfg.byteOrder s.mem e.stores := rfl
@[simp] theorem afterAccess_pending (s : State) (e : AccessEffect) : (s.afterAccess e).pending = e.pending := rfl
@[simp] theorem afterAccess_env (s : State) (e : AccessEffect) : (s.afterAccess e).env = s.env := rfl
@[simp] theorem afterAccess_cfg (s : State) (e : AccessEffect) : (s.afterAccess e).cfg = s.cfg := rfl

/-- Sampling the environment changes no architectural state but the pending requests. -/
theorem sample_eq (s : State) : ∃ p e, s.sample.1 = { s with pending := p, env := e } := by
  unfold State.sample
  split
  · exact ⟨s.pending, s.env, rfl⟩
  · exact ⟨_, _, rfl⟩

@[simp] theorem sample_pc (s : State) : s.sample.1.pc = s.pc := by
  obtain ⟨_, _, h⟩ := sample_eq s; rw [h]
@[simp] theorem sample_regs (s : State) : s.sample.1.regs = s.regs := by
  obtain ⟨_, _, h⟩ := sample_eq s; rw [h]
@[simp] theorem sample_mem (s : State) : s.sample.1.mem = s.mem := by
  obtain ⟨_, _, h⟩ := sample_eq s; rw [h]
@[simp] theorem sample_cfg (s : State) : s.sample.1.cfg = s.cfg := by
  obtain ⟨_, _, h⟩ := sample_eq s; rw [h]
@[simp] theorem sample_reg (s : State) (r : Reg) : s.sample.1.reg r = s.reg r := by
  obtain ⟨_, _, h⟩ := sample_eq s; rw [h]; rfl
@[simp] theorem sample_byteAt (s : State) (a : Nat) : s.sample.1.byteAt a = s.byteAt a := by
  simp only [State.byteAt, sample_mem]
@[simp] theorem sample_supervisor (s : State) : s.sample.1.supervisor = s.supervisor := by
  simp only [State.supervisor, sample_pc]

end Sys2Proof.Machine
end

