-- ==== Sys2Proof/Laws/Ops.lean ====
section
/-! SUPPORT. What each shared operation can do, said once. -/

namespace Sys2Proof.Machine

/-! The register file -/

/-- Register 31 reads 0 (10_state.md R21). -/
theorem reg_31 (s : State) : s.reg 31 = 0 := by
  simp [State.reg]

/-- Register 31 reads 0, in simp's spelling of the numerals. -/
@[simp] theorem reg_31_ofNat (s : State) : s.reg 31#5 = 0#32 := reg_31 s

/-- Reading after a write: register 31 still reads 0, the register written holds the value, every other is as before (R21). -/
theorem reg_setReg (s : State) (rc : Reg) (v : Word) (r : Reg) :
    (s.setReg rc v).reg r = if r = 31 then 0 else if r = rc then v else s.reg r := by
  by_cases h31 : r = 31
  · subst h31; rw [if_pos rfl, reg_31]
  · have hr : r.toNat < 31 := by
      have := r.isLt
      have : r.toNat ≠ 31 := fun e => h31 (BitVec.eq_of_toNat_eq (by simpa using e))
      omega
    rw [if_neg h31]
    unfold State.setReg
    split
    · rename_i hrc
      simp only [State.reg, hr, dite_true]
      by_cases e : r = rc
      · subst e; simp
      · have : rc.toNat ≠ r.toNat := fun h => e (BitVec.eq_of_toNat_eq h.symm)
        simp [e, this]
    · rename_i hrc
      have e : r ≠ rc := fun h => hrc (h ▸ hr)
      rw [if_neg e]

/-- A write of register 31 changes nothing (R21). -/
@[simp] theorem setReg_31 (s : State) (v : Word) : s.setReg 31#5 v = s := by
  simp [State.setReg]

/-! The program counter -/

/-- To advance and then write a register is to write it and then advance: the loads end as the operate instructions do. -/
theorem setReg_advance (s : State) (rc : Reg) (v : Word) : s.advance.setReg rc v = s.writeAndAdvance rc v := by
  unfold State.writeAndAdvance State.setReg
  split <;> rfl

@[simp] theorem pcSup_pcWord (a : BitVec 1) (b : BitVec 31) : pcSup (pcWord a b) = a := by
  refine BitVec.eq_of_toNat_eq ?_
  simp only [pcSup, pcWord, BitVec.extractLsb'_toNat, BitVec.toNat_append, Nat.shiftLeft_eq, Nat.shiftRight_eq_div_pow]
  rw [← Nat.shiftLeft_eq, ← Nat.shiftLeft_add_eq_or_of_lt b.isLt, Nat.shiftLeft_eq]
  have := a.isLt; have := b.isLt; omega

@[simp] theorem pcLow_pcWord (a : BitVec 1) (b : BitVec 31) : pcLow (pcWord a b) = b := by
  refine BitVec.eq_of_toNat_eq ?_
  simp only [pcLow, pcWord, BitVec.extractLsb'_toNat, BitVec.toNat_append, Nat.shiftRight_zero]
  rw [← Nat.shiftLeft_add_eq_or_of_lt b.isLt, Nat.shiftLeft_eq]
  have := a.isLt; have := b.isLt; omega

/-- A PC as a number: the Supervisor bit weighs 2^31. -/
theorem toNat_pcWord (a : BitVec 1) (b : BitVec 31) : (pcWord a b).toNat = a.toNat * 2 ^ 31 + b.toNat := by
  simp only [pcWord, BitVec.toNat_append]
  rw [← Nat.shiftLeft_add_eq_or_of_lt b.isLt, Nat.shiftLeft_eq]

theorem toNat_pcLow (pc : Word) : (pcLow pc).toNat = pc.toNat % 2 ^ 31 := by
  simp [pcLow, BitVec.extractLsb'_toNat]

theorem toNat_pcSup (pc : Word) : (pcSup pc).toNat = pc.toNat / 2 ^ 31 := by
  simp only [pcSup, BitVec.extractLsb'_toNat, Nat.shiftRight_eq_div_pow]
  have := pc.isLt; omega

/-- A PC is its Supervisor bit and its address bits. -/
theorem pcWord_eta (pc : Word) : pcWord (pcSup pc) (pcLow pc) = pc := by
  refine BitVec.eq_of_toNat_eq ?_
  rw [toNat_pcWord, toNat_pcSup, toNat_pcLow]; omega

/-- Supervisor mode is bit 31 of the PC (10_state.md R25). -/
theorem supervisor_iff (s : State) : s.supervisor = true ↔ pcSup s.pc = 1 := by
  rw [State.supervisor, BitVec.getLsbD, Nat.testBit_eq_decide_div_mod_eq, decide_eq_true_eq, ← BitVec.toNat_inj, toNat_pcSup]
  have := s.pc.isLt
  simp only [BitVec.toNat_ofNat, BitVec.ofNat_eq_ofNat]
  omega

theorem user_iff (s : State) : s.supervisor = false ↔ pcSup s.pc = 0 := by
  rw [← Bool.not_eq_true, supervisor_iff, ← BitVec.toNat_inj, ← BitVec.toNat_inj]
  have := (pcSup s.pc).isLt
  simp only [BitVec.toNat_ofNat, BitVec.ofNat_eq_ofNat]
  omega

/-- A boolean bit as the mode. -/
theorem supervisor_eq (s : State) : s.supervisor = decide (2 ^ 31 ≤ s.pc.toNat) := by
  have h := supervisor_iff s
  rw [← BitVec.toNat_inj, toNat_pcSup] at h
  have := s.pc.isLt
  rw [Bool.eq_iff_iff, h, decide_eq_true_eq]
  simp only [BitVec.toNat_ofNat, BitVec.ofNat_eq_ofNat]
  omega

@[simp] theorem pcSup_nextPc (pc : Word) : pcSup (nextPc pc) = pcSup pc := by simp [nextPc]
@[simp] theorem pcLow_nextPc (pc : Word) : pcLow (nextPc pc) = pcLow pc + 4 := by simp [nextPc]
@[simp] theorem pcSup_branchTarget (pcn : Word) (lit : Literal) : pcSup (branchTarget pcn lit) = pcSup pcn := by
  simp [branchTarget]
@[simp] theorem pcSup_jumpPc (pc x : Word) : pcSup (jumpPc pc x) = pcSup pc &&& pcSup (clearLowBits x) := by
  simp [jumpPc]

/-- A PC is a multiple of 4 exactly when its address bits are. -/
theorem toNat_mod_four (pc : Word) : pc.toNat % 4 = (pcLow pc).toNat % 4 := by
  rw [toNat_pcLow]; omega

theorem nextPc_aligned (pc : Word) (h : pc.toNat % 4 = 0) : (nextPc pc).toNat % 4 = 0 := by
  rw [toNat_mod_four] at h ⊢
  rw [pcLow_nextPc, BitVec.toNat_add]
  simp only [BitVec.toNat_ofNat, BitVec.ofNat_eq_ofNat]
  omega

theorem branchTarget_aligned (pcn : Word) (lit : Literal) (h : pcn.toNat % 4 = 0) :
    (branchTarget pcn lit).toNat % 4 = 0 := by
  rw [toNat_mod_four] at h ⊢
  simp only [branchTarget, pcLow_pcWord, BitVec.toNat_ofInt, byteOffset]
  omega

/-- `clearLowBits` as arithmetic. -/
theorem toNat_clearLowBits (x : Word) : (clearLowBits x).toNat = x.toNat / 4 * 4 := by
  have e : clearLowBits x = (x >>> 2) <<< 2 := by
    refine BitVec.eq_of_getLsbD_eq fun i hi => ?_
    have hm : ∀ j, j < 32 → (0xFFFFFFFC : Word).getLsbD j = decide (2 ≤ j) := by decide
    simp only [clearLowBits, BitVec.getLsbD_and, hm i hi, BitVec.getLsbD_shiftLeft, BitVec.getLsbD_ushiftRight, hi]
    by_cases h2 : 2 ≤ i
    · simp [h2, Nat.not_lt.mpr h2]
    · simp [h2, Nat.lt_of_not_le h2]
  rw [e, BitVec.toNat_shiftLeft, BitVec.toNat_ushiftRight, Nat.shiftLeft_eq, Nat.shiftRight_eq_div_pow]
  have := x.isLt; omega

theorem clearLowBits_aligned (x : Word) : (clearLowBits x).toNat % 4 = 0 := by
  rw [toNat_clearLowBits]; omega

theorem jumpPc_aligned (pc x : Word) : (jumpPc pc x).toNat % 4 = 0 := by
  rw [toNat_mod_four, jumpPc, pcLow_pcWord, ← toNat_mod_four]
  exact clearLowBits_aligned x

/-- A vector as a number. -/
theorem toNat_vectorWord (v : VectorIndex) : (vectorWord v).toNat = 4 * v.toNat := by
  simp only [vectorWord, BitVec.toNat_append, BitVec.toNat_ofNat, BitVec.ofNat_eq_ofNat, Nat.zero_mod, Nat.shiftLeft_eq,
    Nat.zero_mul, Nat.zero_or, Nat.or_zero]
  omega

/-! Exceptions -/

@[simp] theorem enterException_cfg (s : State) (v : VectorIndex) : (s.enterException v).cfg = s.cfg := by
  simp [State.enterException]
@[simp] theorem enterException_mem (s : State) (v : VectorIndex) : (s.enterException v).mem = s.mem := by
  simp [State.enterException]
@[simp] theorem enterException_pending (s : State) (v : VectorIndex) : (s.enterException v).pending = s.pending := by
  simp [State.enterException]
@[simp] theorem enterException_env (s : State) (v : VectorIndex) : (s.enterException v).env = s.env := by
  simp [State.enterException]

/-- The PC after exception entry: the vector, with the Supervisor bit set (60_exceptions.md R283). -/
theorem enterException_pc (s : State) (v : VectorIndex) : (s.enterException v).pc.toNat = 2 ^ 31 + 4 * v.toNat := by
  simp only [State.enterException, setPc_pc, toNat_pcWord, toNat_pcLow, toNat_vectorWord]
  simp only [BitVec.toNat_ofNat, BitVec.ofNat_eq_ofNat]
  omega

/-- The registers after exception entry: XP holds the updated PC (60_exceptions.md R283). -/
theorem enterException_reg (s : State) (v : VectorIndex) (r : Reg) :
    (s.enterException v).reg r = if r = 31 then 0 else if r = xp then nextPc s.pc else s.reg r := by
  simp only [State.enterException, setPc_reg, reg_setReg]

/-- In user mode `raise IllegalInstruction` is exception entry (46_privileged_illegal.md R232). -/
theorem raiseIllegal_user (s : State) (h : s.supervisor = false) : s.raiseIllegal = .next (s.enterException s.cfg.vecIllop) := by
  simp [State.raiseIllegal, h]

/-- In supervisor mode it is SUPERVISOR_FAULT (46_privileged_illegal.md R234). -/
theorem raiseIllegal_supervisor (s : State) (h : s.supervisor = true) : s.raiseIllegal = s.supervisorFault := by
  simp [State.raiseIllegal, h]

/-- An outcome of a parameter that goes on is an effect applied. -/
theorem paramOutcome_next {s t : State} {o : ParamOutcome} {f : Fault} {r : Refusal} (h : s.paramOutcome o f r = .next t) :
    ∃ e, o = .effect e ∧ t = s.applyEffect e := by
  cases o with
  | fault => cases h
  | refuse => cases h
  | effect e => cases h; exact ⟨e, rfl, rfl⟩

/-- SUPERVISOR_FAULT goes on only by the implementation's own effect (00_scope.md R12). -/
theorem supervisorFault_next {s t : State} (h : s.supervisorFault = .next t) :
    s.cfg.supervisorFault = .implementation ∧ ∃ e, t = s.applyEffect e := by
  unfold State.supervisorFault at h
  split at h
  · cases h
  · obtain ⟨e, -, rfl⟩ := paramOutcome_next h
    exact ⟨‹_›, e, rfl⟩

/-- What `raise IllegalInstruction` answers with a next state: exception entry in user mode, the implementation's own SUPERVISOR_FAULT in
supervisor mode (46_privileged_illegal.md R232, R234). -/
theorem raiseIllegal_next (s t : State) (h : s.raiseIllegal = .next t) :
    (s.supervisor = false ∧ t = s.enterException s.cfg.vecIllop) ∨
    (s.supervisor = true ∧ s.cfg.supervisorFault = .implementation ∧ ∃ e, t = s.applyEffect e) := by
  cases hs : s.supervisor with
  | false => rw [raiseIllegal_user s hs] at h; cases h; exact .inl ⟨rfl, rfl⟩
  | true => rw [raiseIllegal_supervisor s hs] at h; exact .inr ⟨rfl, supervisorFault_next h⟩

/-- The PC a parameter leaves: the Supervisor bit and four times the index. -/
theorem applyEffect_pc (s : State) (e : ArchEffect) :
    (s.applyEffect e).pc.toNat = (pcSup s.pc).toNat * 2 ^ 31 + 4 * e.pcIndex.toNat := by
  have := e.pcIndex.isLt
  have hz : (e.pcIndex ++ (0 : BitVec 2)).toNat = 4 * e.pcIndex.toNat := by
    rw [BitVec.toNat_append, ← Nat.shiftLeft_add_eq_or_of_lt (0 : BitVec 2).isLt, Nat.shiftLeft_eq]
    simp [Nat.mul_comm]
  show (pcWord (pcSup s.pc) (e.pcIndex ++ (0 : BitVec 2))).toNat = _
  rw [toNat_pcWord, hz]

theorem applyEffect_pcSup (s : State) (e : ArchEffect) : pcSup (s.applyEffect e).pc = pcSup s.pc :=
  pcSup_pcWord _ _

/-! Memory access -/

/-- `addr[1:0] = 00` as arithmetic. -/
theorem isAligned_iff (a : Word) : isAligned a = true ↔ a.toNat % 4 = 0 := by
  rw [isAligned, beq_iff_eq, ← BitVec.toNat_inj]
  simp [BitVec.extractLsb'_toNat]

/-- A data address that is let through is a multiple of 4: the address itself, or the address with its low bits cleared (20_memory.md R56). -/
theorem alignData_ok (cfg : Config) (ea a : Word) (h : alignData cfg ea = .ok a) :
    a.toNat % 4 = 0 ∧ a.toNat = ea.toNat / 4 * 4 := by
  unfold alignData at h
  split at h
  · rename_i ha
    rw [isAligned_iff] at ha
    cases h
    exact ⟨ha, by omega⟩
  · split at h
    · cases h
    · cases h
      exact ⟨clearLowBits_aligned ea, toNat_clearLowBits ea⟩

theorem backedCell_ok (cfg : Config) (a : Word) (c : Nat) (h : backedCell cfg a = .ok c) :
    c = cellOf cfg a ∧ wordBacked cfg c = true := by
  unfold backedCell at h
  split at h
  · cases h; exact ⟨rfl, ‹_›⟩
  · cases h

/-- The cells of an aligned word lie in the address space, at a multiple of 4. -/
theorem cellOf_range (cfg : Config) (a : Word) (h : a.toNat % 4 = 0) :
    cellOf cfg a % 4 = 0 ∧ cellOf cfg a + 3 < 2 ^ 32 := by
  have := a.isLt
  unfold cellOf
  split <;> omega

/-- The cells a data access reaches: backed, in the address space, at a multiple of 4. -/
theorem dataCell_ok (cfg : Config) (ea : Word) (c : Nat) (h : dataCell cfg ea = .ok c) :
    c % 4 = 0 ∧ c + 3 < 2 ^ 32 ∧ wordBacked cfg c = true := by
  unfold dataCell at h
  split at h
  · rename_i a ha
    obtain ⟨rfl, hb⟩ := backedCell_ok cfg a c h
    obtain ⟨h4, h32⟩ := cellOf_range cfg a (alignData_ok cfg ea a ha).1
    exact ⟨h4, h32, hb⟩
  · cases h

/-- What an access that reaches no storage answers: the effect of the implementation's own MEM_MAP, at an address it does not back. -/
theorem accessNoStorage_ok {s : State} {access : Access} {n : NoStorage} {e : AccessEffect} (h : s.accessNoStorage access n = .ok e) :
    ∃ index, n = .unbacked index ∧ s.cfg.unbacked = .implementation ∧ Config.unbackedOutcome s.view access index = some e := by
  cases n with
  | misaligned => cases h
  | unbacked index =>
    unfold State.accessNoStorage at h
    dsimp only at h
    split at h
    · cases h
    · split at h
      · cases h
      · cases h; exact ⟨index, rfl, ‹_›, ‹_›⟩

/-- A read of storage: the word there, and no change of the state (20_memory.md R53). -/
@[simp] theorem readCell_storage (s : State) (c : Nat) : s.readCell (.ok c) = .ok (Memory.readWord s.cfg.byteOrder s.mem c, s) := rfl

/-- What a read answers: the word at the cell, with no change of the state; or what the implementation's own MEM_MAP gives. -/
theorem readCell_ok {s t : State} {cell : Except NoStorage Nat} {v : Word} (h : s.readCell cell = .ok (v, t)) :
    (∃ c, cell = .ok c ∧ v = Memory.readWord s.cfg.byteOrder s.mem c ∧ t = s) ∨
    ∃ index e, cell = .error (.unbacked index) ∧ s.cfg.unbacked = .implementation ∧
      Config.unbackedOutcome s.view .read index = some e ∧ v = e.value ∧ t = s.afterAccess e := by
  unfold State.readCell at h
  split at h
  · cases h; exact .inl ⟨_, rfl, rfl, rfl⟩
  · split at h
    · obtain ⟨index, rfl, hu, ho⟩ := accessNoStorage_ok ‹_›
      cases h
      exact .inr ⟨index, _, rfl, hu, ho, rfl, rfl⟩
    · cases h

/-- A read leaves the registers, the PC, the inputs to come and the configuration. -/
theorem readCell_keeps {s t : State} {cell : Except NoStorage Nat} {v : Word} (h : s.readCell cell = .ok (v, t)) :
    t.regs = s.regs ∧ t.pc = s.pc ∧ t.env = s.env ∧ t.cfg = s.cfg := by
  rcases readCell_ok h with ⟨c, -, -, rfl⟩ | ⟨index, e, -, -, -, -, rfl⟩ <;> exact ⟨rfl, rfl, rfl, rfl⟩

/-- What a write answers: the word's four bytes replaced; or the effect of the implementation's own MEM_MAP. -/
theorem memWrite_ok {s t : State} {ea v : Word} (h : s.memWrite ea v = .ok t) :
    (∃ c, dataCell s.cfg ea = .ok c ∧ t = { s with mem := Memory.writeWord s.cfg.byteOrder s.mem c v }) ∨
    ∃ index e, dataCell s.cfg ea = .error (.unbacked index) ∧ s.cfg.unbacked = .implementation ∧
      Config.unbackedOutcome s.view (.write v) index = some e ∧ t = s.afterAccess e := by
  unfold State.memWrite at h
  split at h
  · cases h; exact .inl ⟨_, ‹_›, rfl⟩
  · split at h
    · obtain ⟨index, rfl, hu, ho⟩ := accessNoStorage_ok ‹_›
      cases h
      exact .inr ⟨index, _, ‹_›, hu, ho, rfl⟩
    · cases h

/-- What a fetch answers: a read of the word at the PC's 31 address bits, which are a multiple of 4 (20_memory.md R57). -/
theorem fetch_ok {s t : State} {w : Word} (h : s.fetch = .ok (w, t)) :
    (fetchAddress s.pc).toNat % 4 = 0 ∧ s.readCell (backedCell s.cfg (fetchAddress s.pc)) = .ok (w, t) := by
  unfold State.fetch at h
  split at h
  · exact ⟨(isAligned_iff _).1 ‹_›, h⟩
  · cases h

/-- A fetch leaves the registers, the PC, the inputs to come and the configuration. -/
theorem fetch_keeps {s t : State} {w : Word} (h : s.fetch = .ok (w, t)) :
    t.regs = s.regs ∧ t.pc = s.pc ∧ t.env = s.env ∧ t.cfg = s.cfg :=
  readCell_keeps (fetch_ok h).2

/-- A fetch of storage: the word there, and no change of the state. -/
theorem fetch_storage {s : State} {c : Nat} (h4 : (fetchAddress s.pc).toNat % 4 = 0)
    (hc : backedCell s.cfg (fetchAddress s.pc) = .ok c) : s.fetch = .ok (Memory.readWord s.cfg.byteOrder s.mem c, s) := by
  rw [State.fetch, if_pos ((isAligned_iff _).2 h4), hc, readCell_storage]

/-! The instruction boundary -/

/-- An interrupt is taken only in user mode, of a source that is chosen, pending and present (60_exceptions.md R274, R276). -/
theorem interruptTaken_some (s : State) (choice : Option IrqSource) (v : VectorIndex) (h : s.interruptTaken choice = some v) :
    ∃ q, choice = some q ∧ s.supervisor = false ∧ q ∈ s.pending ∧ vecIrq s.cfg q = some v := by
  unfold State.interruptTaken at h
  split at h
  · split at h
    · rename_i hc
      simp only [Bool.and_eq_true, Bool.not_eq_true', List.contains_iff_mem] at hc
      exact ⟨_, rfl, hc.1, hc.2, h⟩
    · cases h
  · cases h

end Sys2Proof.Machine
end

