-- ==== Sys2Proof/Laws/Exec.lean ====
section
/-! SUPPORT. What an instruction and a step can do, said once: every next state is one of a few shapes. -/

namespace Sys2Proof.Machine

/-- The shapes of a next state of an instruction: a register written and the PC advanced; a control transfer, which links the updated PC and
goes to a branch target, on, or to a jump target; a word stored; the entry of IllegalInstruction from user mode; the effect of the
implementation's own PRIV_EXEC or SUPERVISOR_FAULT; a load or a store that the implementation's own MEM_MAP makes of an unbacked access. -/
inductive ExecShape (i : Instr) (s : State) : State → Prop where
  | operate (rc : Reg) (v : Word) : ExecShape i s (s.writeAndAdvance rc v)
  | branch (rc : Reg) (taken : Bool) (lit : Literal) (hi : ∃ ra, i = .beq rc ra lit ∨ i = .bne rc ra lit) :
      ExecShape i s ((s.setReg rc (nextPc s.pc)).setPc (if taken then branchTarget (nextPc s.pc) lit else nextPc s.pc))
  | jump (rc ra : Reg) (u : Literal) (hi : i = .jmp rc ra u) :
      ExecShape i s ((s.setReg rc (nextPc s.pc)).setPc (jumpPc s.pc (s.reg ra)))
  | store (rc ra : Reg) (lit : Literal) (c : Nat) (hi : i = .st rc ra lit) (hc : dataCell s.cfg (s.baseAddress ra lit) = .ok c) :
      ExecShape i s ({ s with mem := Memory.writeWord s.cfg.byteOrder s.mem c (s.reg rc) } : State).advance
  | illegal (hs : s.supervisor = false) : ExecShape i s (s.enterException s.cfg.vecIllop)
  | parameter (e : ArchEffect) (hp : ParameterActs i s) : ExecShape i s (s.applyEffect e)
  | loadUnbacked (rc : Reg) (e : AccessEffect) (hi : destination i = some rc) (hu : UnbackedActs i s) :
      ExecShape i s ((s.afterAccess e).writeAndAdvance rc e.value)
  | storeUnbacked (e : AccessEffect) (hu : UnbackedActs i s) : ExecShape i s (s.afterAccess e).advance

theorem operate_next {i : Instr} {s t : State} {rc : Reg} {v : Word} (h : s.operate rc v = .next t) : ExecShape i s t := by
  cases h; exact .operate rc v

/-- An instruction that is illegal in supervisor mode, where SUPERVISOR_FAULT is the implementation's own, is the parameter's to give. -/
theorem raiseIllegal_shape {i : Instr} {s t : State} (h : s.raiseIllegal = .next t)
    (hp : s.supervisor = true → s.cfg.supervisorFault = .implementation → ParameterActs i s) : ExecShape i s t := by
  rcases raiseIllegal_next s t h with ⟨hs, rfl⟩ | ⟨hs, hf, e, rfl⟩
  · exact .illegal hs
  · exact .parameter e (hp hs hf)

theorem optional_next {i : Instr} {s t : State} {rc : Reg} {v : Word} (hi : i.opcode ∈ optionalOpcodes)
    (h : s.optional (s.operate rc v) = .next t) : ExecShape i s t := by
  unfold State.optional at h
  split at h
  · exact operate_next h
  · exact raiseIllegal_shape h fun hs hf => ⟨hs, .inr ⟨hi, Bool.not_eq_true _ ▸ ‹¬_›, hf⟩⟩

theorem load_next {i : Instr} {s t : State} {rc : Reg} {ea : Word} (hd : destination i = some rc) (ha : dataAddress s i = some ea)
    (h : s.load rc ea = .next t) : ExecShape i s t := by
  unfold State.load at h
  split at h
  · rename_i v u hv
    cases h
    rcases readCell_ok hv with ⟨c, -, -, rfl⟩ | ⟨index, e, hc, hu, -, rfl, rfl⟩
    · rw [setReg_advance]
      exact .operate rc _
    · rw [show s.advance.afterAccess e = (s.afterAccess e).advance from rfl, setReg_advance]
      exact .loadUnbacked rc e hd ⟨hu, ea, index, ha, hc⟩
  · cases h

theorem execSt_next {s t : State} {rc ra : Reg} {lit : Literal} (h : execSt rc ra lit s = .next t) :
    ExecShape (.st rc ra lit) s t := by
  unfold execSt at h
  split at h
  · rename_i u hu
    cases h
    rcases memWrite_ok hu with ⟨c, hc, rfl⟩ | ⟨index, e, hc, hi, -, rfl⟩
    · exact .store rc ra lit c rfl hc
    · exact .storeUnbacked e ⟨hi, _, index, rfl, hc⟩
  · cases h

theorem execPriv_next {s t : State} {body : BitVec 26} (h : execPriv body s = .next t) : ExecShape (.priv body) s t := by
  unfold execPriv at h
  split at h
  · rename_i hs
    unfold State.privExec at h
    split at h
    · cases h
    · rename_i hc
      exact raiseIllegal_shape h fun _ hf => ⟨hs, .inl ⟨rfl, .inr ⟨hc, hf⟩⟩⟩
    · rename_i hc
      have hp : ParameterActs (.priv body) s := ⟨hs, .inl ⟨rfl, .inl hc⟩⟩
      split at h
      · exact raiseIllegal_shape h fun _ _ => hp
      · obtain ⟨e, -, rfl⟩ := paramOutcome_next h
        exact .parameter e hp
  · rename_i hs
    exact raiseIllegal_shape h fun ht => absurd ht hs

/-- Every next state of an instruction has one of the shapes. -/
theorem exec_shape (i : Instr) (s t : State) (h : exec i s = .next t) : ExecShape i s t := by
  cases i with
  | priv => exact execPriv_next h
  | ld => exact load_next rfl rfl h
  | ldr => exact load_next rfl rfl h
  | st => exact execSt_next h
  | jmp rc ra u => cases h; exact .jump rc ra u rfl
  | beq rc ra lit => cases h; exact .branch rc _ lit ⟨ra, .inl rfl⟩
  | bne rc ra lit => cases h; exact .branch rc _ lit ⟨ra, .inr rfl⟩
  | mul => exact optional_next (by simp [Instr.opcode, optionalOpcodes]) h
  | mulc => exact optional_next (by simp [Instr.opcode, optionalOpcodes]) h
  | div => exact optional_next (by simp [Instr.opcode, optionalOpcodes]) h
  | divc => exact optional_next (by simp [Instr.opcode, optionalOpcodes]) h
  | add => exact operate_next h
  | sub => exact operate_next h
  | cmpeq => exact operate_next h
  | cmplt => exact operate_next h
  | cmple => exact operate_next h
  | and => exact operate_next h
  | or => exact operate_next h
  | xor => exact operate_next h
  | xnor => exact operate_next h
  | shl => exact operate_next h
  | shr => exact operate_next h
  | sra => exact operate_next h
  | addc => exact operate_next h
  | subc => exact operate_next h
  | cmpeqc => exact operate_next h
  | cmpltc => exact operate_next h
  | cmplec => exact operate_next h
  | andc => exact operate_next h
  | orc => exact operate_next h
  | xorc => exact operate_next h
  | xnorc => exact operate_next h
  | shlc => exact operate_next h
  | shrc => exact operate_next h
  | srac => exact operate_next h

/-- Whether a parameter acts does not depend on the environment's input. -/
@[simp] theorem parameterActs_sample (i : Instr) (s : State) : ParameterActs i s.sample.1 ↔ ParameterActs i s := by
  simp [ParameterActs]

/-- Nor does it depend on what a fetch does. -/
theorem parameterActs_fetch {i : Instr} {s u : State} {w : Word} (h : s.fetch = .ok (w, u)) : ParameterActs i u ↔ ParameterActs i s := by
  obtain ⟨-, hpc, -, hcfg⟩ := fetch_keeps h
  rw [ParameterActs, ParameterActs, hcfg, State.supervisor, hpc, ← State.supervisor]

/-- Whether MEM_MAP acts depends on the registers, the PC and the configuration alone. -/
theorem unbackedActs_congr {i : Instr} {s u : State} (hr : u.regs = s.regs) (hp : u.pc = s.pc) (hc : u.cfg = s.cfg) :
    UnbackedActs i u ↔ UnbackedActs i s := by
  have ha : dataAddress u i = dataAddress s i := by
    cases i <;> simp only [dataAddress, State.baseAddress, State.reg, hr, hp]
  rw [UnbackedActs, UnbackedActs, ha, hc]

/-- What a step can do: take an interrupt, run the instruction fetched, take IllegalInstruction for an unassigned opcode, or have for one the
effect of the implementation's own SUPERVISOR_FAULT; the first from the state with the environment's input sampled, the others from the state
after the fetch (60_exceptions.md R296). -/
theorem step_cases (s t : State) (h : step s = .next t) :
    (∃ q v, s.sample.2 = some q ∧ s.supervisor = false ∧ q ∈ s.sample.1.pending ∧ vecIrq s.cfg q = some v ∧
      t = s.sample.1.enterException v) ∨
    (∃ w u i, s.sample.1.fetch = .ok (w, u) ∧ decodeWord s.cfg.hasMulDiv w = .ok i ∧ exec i u = .next t) ∨
    (∃ w u e, s.sample.1.fetch = .ok (w, u) ∧ decodeWord s.cfg.hasMulDiv w = .error e ∧ s.supervisor = false ∧
      t = u.enterException s.cfg.vecIllop) ∨
    (∃ w u e, s.sample.1.fetch = .ok (w, u) ∧ StepParameterActs s ∧ t = u.applyEffect e) := by
  unfold step stepWith at h
  split at h
  · rename_i v hv
    obtain ⟨q, hq, hs, hp, hvec⟩ := interruptTaken_some _ _ _ hv
    cases h
    rw [sample_supervisor] at hs
    rw [sample_cfg] at hvec
    exact .inl ⟨q, v, hq, hs, hp, hvec, rfl⟩
  · unfold runInstruction at h
    rw [sample_cfg] at h
    split at h
    · cases h
    · rename_i w u hw
      obtain ⟨-, hpc, -, hcfg⟩ := fetch_keeps hw
      rw [sample_cfg] at hcfg
      split at h
      · rename_i i hi
        exact .inr (.inl ⟨w, u, i, hw, hi, h⟩)
      · rename_i e he
        rcases raiseIllegal_next _ _ h with ⟨hs, rfl⟩ | ⟨hs, hf, f, rfl⟩ <;>
          rw [State.supervisor, hpc, ← State.supervisor, sample_supervisor] at hs <;> rw [hcfg] at *
        · exact .inr (.inr (.inl ⟨w, u, e, hw, he, hs, rfl⟩))
        · exact .inr (.inr (.inr ⟨w, u, f, hw, ⟨w, u, hw, .inr ⟨decodeWord_error _ w e he, hs, hf⟩⟩, rfl⟩))

end Sys2Proof.Machine
end

