-- ==== Sys2Proof/Laws/Operands.lean ====
section
/-! SUPPORT. The operand forms and the results as arithmetic, and what the shared ends of the instructions leave. -/

namespace Sys2Proof.Machine

/-- A literal keeps its signed value when it is extended (30_encoding.md R84). -/
theorem signed_sext32 (lit : Literal) : signed (sext32 lit) = lit.toInt := by
  simp only [signed, sext32]; exact BitVec.toInt_signExtend_of_le (by decide)

/-- An extended literal as a number. -/
theorem toNat_sext32 (lit : Literal) : ((sext32 lit).toNat : Int) = lit.toInt % 2 ^ 32 := by
  have h := signed_sext32 lit
  unfold signed at h
  rw [BitVec.toInt_eq_toNat_bmod] at h
  have h2 := (sext32 lit).isLt
  rw [← h, show ((2 : Int) ^ 32) = ((2 ^ 32 : Nat) : Int) by norm_num, Int.bmod_emod]
  omega

/-- Bits 31:16 of an extended literal are copies of its bit 15. -/
theorem getLsbD_sext32 (lit : Literal) (k : Nat) (h : k < 32) : (sext32 lit).getLsbD k = lit.getLsbD (min k 15) := by
  simp only [sext32, BitVec.getLsbD_signExtend, BitVec.msb_eq_getLsbD_last]
  by_cases h16 : k < 16
  · simp [h, h16, Nat.min_eq_left (show k ≤ 15 by omega)]
  · simp [h, h16, Nat.min_eq_right (show 15 ≤ k by omega)]

/-- A base plus an extended literal, as a number modulo 2^32. -/
theorem add_sext32 (a : Word) (lit : Literal) : a + sext32 lit = BitVec.ofInt 32 (a.toNat + lit.toInt) := by
  refine BitVec.eq_of_toNat_eq ?_
  have := toNat_sext32 lit
  rw [BitVec.toNat_add, BitVec.toNat_ofInt]
  push_cast
  omega

theorem countOfWord_eq (v : Word) : countOfWord v = v.toNat % 32 := by
  simp [countOfWord, BitVec.extractLsb'_toNat]

theorem countOfLiteral_eq (lit : Literal) : countOfLiteral lit = lit.toNat % 32 := by
  simp [countOfLiteral, BitVec.extractLsb'_toNat]

/-- The fetch address is the PC's 31 address bits. -/
theorem toNat_fetchAddress (pc : Word) : (fetchAddress pc).toNat = pc.toNat % 2 ^ 31 := by
  rw [fetchAddress, BitVec.toNat_and]
  exact Nat.and_two_pow_sub_one_eq_mod _ 31

/-- The registers after the end of an operate instruction or a load. -/
theorem reg_writeAndAdvance (s : State) (rc : Reg) (v : Word) (r : Reg) :
    (s.writeAndAdvance rc v).reg r = if r = 31 then 0 else if r = rc then v else s.reg r := by
  simp only [State.writeAndAdvance, advance_reg, reg_setReg]

@[simp] theorem writeAndAdvance_pc (s : State) (rc : Reg) (v : Word) : (s.writeAndAdvance rc v).pc = nextPc s.pc := by
  simp [State.writeAndAdvance]
@[simp] theorem writeAndAdvance_mem (s : State) (rc : Reg) (v : Word) : (s.writeAndAdvance rc v).mem = s.mem := by
  simp [State.writeAndAdvance]
@[simp] theorem writeAndAdvance_pending (s : State) (rc : Reg) (v : Word) : (s.writeAndAdvance rc v).pending = s.pending := by
  simp [State.writeAndAdvance]
@[simp] theorem writeAndAdvance_env (s : State) (rc : Reg) (v : Word) : (s.writeAndAdvance rc v).env = s.env := by
  simp [State.writeAndAdvance]
@[simp] theorem writeAndAdvance_cfg (s : State) (rc : Reg) (v : Word) : (s.writeAndAdvance rc v).cfg = s.cfg := by
  simp [State.writeAndAdvance]
@[simp] theorem writeAndAdvance_byteAt (s : State) (rc : Reg) (v : Word) (a : Nat) :
    (s.writeAndAdvance rc v).byteAt a = s.byteAt a := by
  simp [State.writeAndAdvance]

/-- An optional instruction the machine has is its meaning (00_scope.md R8). -/
theorem optional_present (s : State) (m : Result) (h : s.cfg.hasMulDiv = true) : s.optional m = m := by
  rw [State.optional, if_pos h]

/-- An optional instruction the machine lacks is an illegal instruction (00_scope.md R8). -/
theorem optional_absent (s : State) (m : Result) (h : s.cfg.hasMulDiv = false) : s.optional m = s.raiseIllegal := by
  simp [State.optional, h]

end Sys2Proof.Machine
end

