-- ==== Sys2Proof/Laws/PerInstr.lean ====
section
/-! SUPPORT. The statements made per instruction. EncodeOpcode: the word of an instruction has that instruction's opcode in bits 31:26. -/

namespace Sys2Proof.Laws.EncodeOpcode

/-- Bits 31:26 of the encoded word are the instruction's opcode (spec/30_encoding.md R87, R89). -/
def Statement (i : Instr) : Prop := opcodeOf (encode i) = i.opcode

theorem priv (body : BitVec 26) : Statement (.priv body) := (fields_packBody _ _).1
theorem ld (rc ra : Reg) (lit : Literal) : Statement (.ld rc ra lit) := (fields_packLiteral _ _ _ _).1
theorem st (rc ra : Reg) (lit : Literal) : Statement (.st rc ra lit) := (fields_packLiteral _ _ _ _).1
theorem jmp (rc ra : Reg) (lit : Literal) : Statement (.jmp rc ra lit) := (fields_packLiteral _ _ _ _).1
theorem beq (rc ra : Reg) (lit : Literal) : Statement (.beq rc ra lit) := (fields_packLiteral _ _ _ _).1
theorem bne (rc ra : Reg) (lit : Literal) : Statement (.bne rc ra lit) := (fields_packLiteral _ _ _ _).1
theorem ldr (rc ra : Reg) (lit : Literal) : Statement (.ldr rc ra lit) := (fields_packLiteral _ _ _ _).1
theorem add (rc ra rb : Reg) (u : BitVec 11) : Statement (.add rc ra rb u) := (fields_packOperate _ _ _ _ _).1
theorem sub (rc ra rb : Reg) (u : BitVec 11) : Statement (.sub rc ra rb u) := (fields_packOperate _ _ _ _ _).1
theorem mul (rc ra rb : Reg) (u : BitVec 11) : Statement (.mul rc ra rb u) := (fields_packOperate _ _ _ _ _).1
theorem div (rc ra rb : Reg) (u : BitVec 11) : Statement (.div rc ra rb u) := (fields_packOperate _ _ _ _ _).1
theorem cmpeq (rc ra rb : Reg) (u : BitVec 11) : Statement (.cmpeq rc ra rb u) := (fields_packOperate _ _ _ _ _).1
theorem cmplt (rc ra rb : Reg) (u : BitVec 11) : Statement (.cmplt rc ra rb u) := (fields_packOperate _ _ _ _ _).1
theorem cmple (rc ra rb : Reg) (u : BitVec 11) : Statement (.cmple rc ra rb u) := (fields_packOperate _ _ _ _ _).1
theorem and (rc ra rb : Reg) (u : BitVec 11) : Statement (.and rc ra rb u) := (fields_packOperate _ _ _ _ _).1
theorem or (rc ra rb : Reg) (u : BitVec 11) : Statement (.or rc ra rb u) := (fields_packOperate _ _ _ _ _).1
theorem xor (rc ra rb : Reg) (u : BitVec 11) : Statement (.xor rc ra rb u) := (fields_packOperate _ _ _ _ _).1
theorem xnor (rc ra rb : Reg) (u : BitVec 11) : Statement (.xnor rc ra rb u) := (fields_packOperate _ _ _ _ _).1
theorem shl (rc ra rb : Reg) (u : BitVec 11) : Statement (.shl rc ra rb u) := (fields_packOperate _ _ _ _ _).1
theorem shr (rc ra rb : Reg) (u : BitVec 11) : Statement (.shr rc ra rb u) := (fields_packOperate _ _ _ _ _).1
theorem sra (rc ra rb : Reg) (u : BitVec 11) : Statement (.sra rc ra rb u) := (fields_packOperate _ _ _ _ _).1
theorem addc (rc ra : Reg) (lit : Literal) : Statement (.addc rc ra lit) := (fields_packLiteral _ _ _ _).1
theorem subc (rc ra : Reg) (lit : Literal) : Statement (.subc rc ra lit) := (fields_packLiteral _ _ _ _).1
theorem mulc (rc ra : Reg) (lit : Literal) : Statement (.mulc rc ra lit) := (fields_packLiteral _ _ _ _).1
theorem divc (rc ra : Reg) (lit : Literal) : Statement (.divc rc ra lit) := (fields_packLiteral _ _ _ _).1
theorem cmpeqc (rc ra : Reg) (lit : Literal) : Statement (.cmpeqc rc ra lit) := (fields_packLiteral _ _ _ _).1
theorem cmpltc (rc ra : Reg) (lit : Literal) : Statement (.cmpltc rc ra lit) := (fields_packLiteral _ _ _ _).1
theorem cmplec (rc ra : Reg) (lit : Literal) : Statement (.cmplec rc ra lit) := (fields_packLiteral _ _ _ _).1
theorem andc (rc ra : Reg) (lit : Literal) : Statement (.andc rc ra lit) := (fields_packLiteral _ _ _ _).1
theorem orc (rc ra : Reg) (lit : Literal) : Statement (.orc rc ra lit) := (fields_packLiteral _ _ _ _).1
theorem xorc (rc ra : Reg) (lit : Literal) : Statement (.xorc rc ra lit) := (fields_packLiteral _ _ _ _).1
theorem xnorc (rc ra : Reg) (lit : Literal) : Statement (.xnorc rc ra lit) := (fields_packLiteral _ _ _ _).1
theorem shlc (rc ra : Reg) (lit : Literal) : Statement (.shlc rc ra lit) := (fields_packLiteral _ _ _ _).1
theorem shrc (rc ra : Reg) (lit : Literal) : Statement (.shrc rc ra lit) := (fields_packLiteral _ _ _ _).1
theorem srac (rc ra : Reg) (lit : Literal) : Statement (.srac rc ra lit) := (fields_packLiteral _ _ _ _).1

end Sys2Proof.Laws.EncodeOpcode
end

