-- ==== Sys2Proof/Laws/Runs.lean ====
section
/-! SUPPORT. Runs of many steps, taken apart one step at a time. -/

namespace Sys2Proof.Machine

@[simp] theorem runsTo_zero (s t : State) : RunsTo 0 s t ↔ t = s := by
  constructor
  · intro h; cases h; rfl
  · rintro rfl; rfl

/-- A run of `k + 1` steps is a step and a run of `k`. -/
theorem runsTo_succ (k : Nat) (s t : State) : RunsTo (k + 1) s t ↔ ∃ u, step s = .next u ∧ RunsTo k u t := by
  have hrun : Host.Core.run Sys2Proof.core (k + 1) s = _ := Host.Core.run.eq_2 Sys2Proof.core s k
  constructor
  · intro h
    rw [RunsTo, hrun] at h
    split at h
    · exact ⟨_, ‹_›, h⟩
    · cases h
    · cases h
  · rintro ⟨u, hu, h⟩
    have hstep : Sys2Proof.core.step s = .next u := hu
    rw [RunsTo, hrun, hstep]
    exact h

/-- A straight line of instructions is its first and the rest. -/
theorem execAll_cons (i : Instr) (rest : List Instr) (s t : State) (h : exec i s = .next t) :
    execAll (i :: rest) s = execAll rest t := by
  rw [execAll, h]

@[simp] theorem execAll_nil (s : State) : execAll [] s = .next s := rfl

/-- The test that a run without handlers makes at each boundary (70_reset_and_hazards.md R322). -/
theorem takesInterrupt_eq_false (s : State) : s.takesInterrupt = false ↔ NoInterrupt s := by
  simp [State.takesInterrupt, NoInterrupt]

end Sys2Proof.Machine
end

