-- ==== Sys2Proof/WellFormed.lean ====
section
/-! DEFINITION. Which instructions are as an assembler writes them: the idle fields hold what the manual says they should
(30_encoding.md R90 zeros, R91 zeros, R92 `11111`). Every other value of those bits decodes and runs all the same. -/

namespace Sys2Proof

/-- The idle fields hold their conventional values (R90, R91, R92); the other instructions have no idle field. -/
def Instr.wellFormed : Instr → Bool
  | .priv _ => true
  | .ld _ _ _ => true
  | .st _ _ _ => true
  | .jmp _ _ unused => unused == 0
  | .beq _ _ _ => true
  | .bne _ _ _ => true
  | .ldr _ raIgnored _ => raIgnored == 31
  | .add _ _ _ unused => unused == 0
  | .sub _ _ _ unused => unused == 0
  | .mul _ _ _ unused => unused == 0
  | .div _ _ _ unused => unused == 0
  | .cmpeq _ _ _ unused => unused == 0
  | .cmplt _ _ _ unused => unused == 0
  | .cmple _ _ _ unused => unused == 0
  | .and _ _ _ unused => unused == 0
  | .or _ _ _ unused => unused == 0
  | .xor _ _ _ unused => unused == 0
  | .xnor _ _ _ unused => unused == 0
  | .shl _ _ _ unused => unused == 0
  | .shr _ _ _ unused => unused == 0
  | .sra _ _ _ unused => unused == 0
  | .addc _ _ _ => true
  | .subc _ _ _ => true
  | .mulc _ _ _ => true
  | .divc _ _ _ => true
  | .cmpeqc _ _ _ => true
  | .cmpltc _ _ _ => true
  | .cmplec _ _ _ => true
  | .andc _ _ _ => true
  | .orc _ _ _ => true
  | .xorc _ _ _ => true
  | .xnorc _ _ _ => true
  | .shlc _ _ _ => true
  | .shrc _ _ _ => true
  | .srac _ _ _ => true

end Sys2Proof
end

