-- ==== Sys2Proof/Tests/Slice0.lean ====
section
/-! SUPPORT. Tests: ill-formed terms, one word per constructor, single steps with results taken from spec/95_test_vectors.md, and for every
obligation with hypotheses a state that meets them. -/

namespace Sys2Proof.Tests

open Sys2Proof Sys2Proof.Machine

/-! The well-formedness smoke test: a set idle field is refused, the conventional value is accepted (R90, R91, R92) -/

theorem test_wellFormed_refuses_operate :
    [(.add 3 1 2 1 : Instr), .sub 3 1 2 1, .mul 3 1 2 1, .div 3 1 2 1, .cmpeq 3 1 2 1, .cmplt 3 1 2 1, .cmple 3 1 2 1,
      .and 3 1 2 1, .or 3 1 2 1, .xor 3 1 2 1, .xnor 3 1 2 1, .shl 3 1 2 1, .shr 3 1 2 1, .sra 3 1 2 1].all
      (fun i => i.wellFormed == false) = true := by decide
theorem test_wellFormed_refuses_jmp : (Instr.jmp 31 28 0x1234).wellFormed = false := by decide
theorem test_wellFormed_refuses_ldr : (Instr.ldr 0 0 2).wellFormed = false := by decide
theorem test_wellFormed_accepts : ([.add 3 1 2 0, .jmp 31 28 0, .ldr 0 31 2, .st 2 1 8, .priv 5] : List Instr).all Instr.wellFormed = true := by decide

/-! Decoding: a word written out from the encoding of every row (30_encoding.md R81, R82, R87, R94) -/

theorem test_decode_priv_and_memory :
    decodeWord true 0b000000_10000000000000000000000001 = .ok (.priv 0x2000001) ∧
    decodeWord true 0b011000_10011_01010_1000000000000111 = .ok (.ld 19 10 0x8007) ∧
    decodeWord true 0b011001_10011_01010_1000000000000111 = .ok (.st 19 10 0x8007) ∧
    decodeWord true 0b011111_10011_01010_1000000000000111 = .ok (.ldr 19 10 0x8007) := by decide
theorem test_decode_branch_jump :
    decodeWord true 0b011011_10011_01010_1000000000000111 = .ok (.jmp 19 10 0x8007) ∧
    decodeWord true 0b011100_10011_01010_1000000000000111 = .ok (.beq 19 10 0x8007) ∧
    decodeWord true 0b011101_10011_01010_1000000000000111 = .ok (.bne 19 10 0x8007) := by decide
theorem test_decode_arithmetic :
    decodeWord true 0b100000_10011_01010_11001_10000000001 = .ok (.add 19 10 25 0x401) ∧
    decodeWord true 0b100001_10011_01010_11001_10000000001 = .ok (.sub 19 10 25 0x401) ∧
    decodeWord true 0b100010_10011_01010_11001_10000000001 = .ok (.mul 19 10 25 0x401) ∧
    decodeWord true 0b100011_10011_01010_11001_10000000001 = .ok (.div 19 10 25 0x401) ∧
    decodeWord true 0b110000_10011_01010_1000000000000111 = .ok (.addc 19 10 0x8007) ∧
    decodeWord true 0b110001_10011_01010_1000000000000111 = .ok (.subc 19 10 0x8007) ∧
    decodeWord true 0b110010_10011_01010_1000000000000111 = .ok (.mulc 19 10 0x8007) ∧
    decodeWord true 0b110011_10011_01010_1000000000000111 = .ok (.divc 19 10 0x8007) := by decide
theorem test_decode_compare :
    decodeWord true 0b100100_10011_01010_11001_10000000001 = .ok (.cmpeq 19 10 25 0x401) ∧
    decodeWord true 0b100101_10011_01010_11001_10000000001 = .ok (.cmplt 19 10 25 0x401) ∧
    decodeWord true 0b100110_10011_01010_11001_10000000001 = .ok (.cmple 19 10 25 0x401) ∧
    decodeWord true 0b110100_10011_01010_1000000000000111 = .ok (.cmpeqc 19 10 0x8007) ∧
    decodeWord true 0b110101_10011_01010_1000000000000111 = .ok (.cmpltc 19 10 0x8007) ∧
    decodeWord true 0b110110_10011_01010_1000000000000111 = .ok (.cmplec 19 10 0x8007) := by decide
theorem test_decode_logical :
    decodeWord true 0b101000_10011_01010_11001_10000000001 = .ok (.and 19 10 25 0x401) ∧
    decodeWord true 0b101001_10011_01010_11001_10000000001 = .ok (.or 19 10 25 0x401) ∧
    decodeWord true 0b101010_10011_01010_11001_10000000001 = .ok (.xor 19 10 25 0x401) ∧
    decodeWord true 0b101011_10011_01010_11001_10000000001 = .ok (.xnor 19 10 25 0x401) ∧
    decodeWord true 0b111000_10011_01010_1000000000000111 = .ok (.andc 19 10 0x8007) ∧
    decodeWord true 0b111001_10011_01010_1000000000000111 = .ok (.orc 19 10 0x8007) ∧
    decodeWord true 0b111010_10011_01010_1000000000000111 = .ok (.xorc 19 10 0x8007) ∧
    decodeWord true 0b111011_10011_01010_1000000000000111 = .ok (.xnorc 19 10 0x8007) := by decide
theorem test_decode_shift :
    decodeWord true 0b101100_10011_01010_11001_10000000001 = .ok (.shl 19 10 25 0x401) ∧
    decodeWord true 0b101101_10011_01010_11001_10000000001 = .ok (.shr 19 10 25 0x401) ∧
    decodeWord true 0b101110_10011_01010_11001_10000000001 = .ok (.sra 19 10 25 0x401) ∧
    decodeWord true 0b111100_10011_01010_1000000000000111 = .ok (.shlc 19 10 0x8007) ∧
    decodeWord true 0b111101_10011_01010_1000000000000111 = .ok (.shrc 19 10 0x8007) ∧
    decodeWord true 0b111110_10011_01010_1000000000000111 = .ok (.srac 19 10 0x8007) := by decide

/-- Every unassigned opcode is illegal, by its own value (R93). -/
theorem test_decode_unassigned : (unassignedOpcodes true).all (fun op => decodeWord true (packLiteral op 31 31 0xFFFF) == .error (.illegalOpcode op)) = true := by
  decide
/-- On a machine without the optional opcodes their words are illegal too, and no other is (R95). -/
theorem test_decode_lacking : optionalOpcodes.all (fun op => decodeWord false (packLiteral op 3 1 2) == .error (.illegalOpcode op)) = true ∧
    decodeWord false 0x80611000 = .ok (.add 3 1 2 0) := by decide
theorem test_decode_length : decodeBytes .little true [1, 2, 3] = .error .notOneWord ∧ decodeBytes .little true [] = .error .notOneWord ∧
    decodeBytes .big true [0x80, 0x61, 0x10, 0x00] = .ok (.add 3 1 2 0) ∧ decodeBytes .little true [0x00, 0x10, 0x61, 0x80] = .ok (.add 3 1 2 0) := by
  decide
theorem test_decodeTableWord : decodeTableWord 32 0x80611000 = some (.add 3 1 2 0) ∧ decodeTableWord 32 0x04000000 = none := by decide

/-! Single steps -/

/-- A configuration for tests: VEC_ILLOP is 4, source 0 has the vector 8 and source 5 the vector 12. -/
def config : Config where
  hasMulDiv := true
  vecIllop := 1
  irqVectors := [(0, 2), (5, 3)]
  privExec := .refuse
  supervisorFault := .fault
  misaligned := .refuse
  byteOrder := .little
  backed := [⟨0, 2 ^ 32⟩]
  aliasBit31 := false
  unbacked := .refuse

/-- A machine with these words in memory and these registers set, the others 0. -/
def machine (pc : Word) (words : List (Nat × Word)) (regs : List (Reg × Word)) : State :=
  regs.foldl (fun s entry => s.setReg entry.1 entry.2)
    { regs := Vector.replicate 31 0, pc := pc, pending := [], env := [], cfg := config,
      mem := words.foldl (fun m entry => Memory.writeWord .little m entry.1 entry.2) [] }

/-- A register and the PC after a step. -/
def after (r : Reg) : Result → Option (Word × Word)
  | .next t => some (t.reg r, t.pc)
  | _ => none

/-- A word of memory and the PC after a step. -/
def afterMem (a : Nat) : Result → Option (Word × Word)
  | .next t => some (Memory.readWord t.cfg.byteOrder t.mem a, t.pc)
  | _ => none

/-- The refusal a step ends in. -/
def refusalOf : Result → Option Refusal
  | .refused r => some r
  | _ => none

/-- The fault a step ends in. -/
def faultOf : Result → Option Fault
  | .fault f => some f
  | _ => none

/-- The machine of 95_test_vectors.md 2.1 and 2.2: the word at 0x100 in user mode, R1 and R2 as given. -/
def operands (iw r1 r2 : Word) : State := machine 0x100 [(0x100, iw)] [(1, r1), (2, r2)]

/-! The operate instructions (vectors of 2.1 to 2.3, by number) -/

theorem test_add_V1 : after 3 (step (operands 0x80611000 0x7FFFFFFF 0x00000001)) = some (0x80000000, 0x104) := by decide
theorem test_add_V4 : after 3 (step (operands 0x80611000 0x12345678 0x11111111)) = some (0x23456789, 0x104) := by decide
theorem test_sub_V5 : after 3 (step (operands 0x84611000 0x00000000 0x00000001)) = some (0xFFFFFFFF, 0x104) := by decide
theorem test_sub_V8 : after 3 (step (operands 0x84611000 0x00000003 0xFFFFFFFF)) = some (0x00000004, 0x104) := by decide
theorem test_mul_V12 : after 3 (step (operands 0x88611000 0x12345678 0x9ABCDEF0)) = some (0x242D2080, 0x104) := by decide
theorem test_mul_V13 : after 3 (step (operands 0x88611000 0xFFFFFFFE 0x00000003)) = some (0xFFFFFFFA, 0x104) := by decide
theorem test_div_V15 : after 3 (step (operands 0x8C611000 0xFFFFFFF9 0x00000002)) = some (0xFFFFFFFD, 0x104) := by decide
theorem test_div_V18 : after 3 (step (operands 0x8C611000 0x80000000 0xFFFFFFFF)) = some (0x80000000, 0x104) := by decide
theorem test_and_V23 : after 3 (step (operands 0xA0611000 0xF0F0F0F0 0xFF00FF00)) = some (0xF000F000, 0x104) := by decide
theorem test_or_V25 : after 3 (step (operands 0xA4611000 0xF0F0F0F0 0xFF00FF00)) = some (0xFFF0FFF0, 0x104) := by decide
theorem test_xor_V27 : after 3 (step (operands 0xA8611000 0xF0F0F0F0 0xFF00FF00)) = some (0x0FF00FF0, 0x104) := by decide
theorem test_xnor_V31 : after 3 (step (operands 0xAC611000 0x12345678 0x00000000)) = some (0xEDCBA987, 0x104) := by decide
theorem test_cmpeq_V32 : after 3 (step (operands 0x90611000 0x00000005 0x00000005)) = some (0x00000001, 0x104) := by decide
theorem test_cmpeq_V35 : after 3 (step (operands 0x90611000 0x00000000 0x80000000)) = some (0x00000000, 0x104) := by decide
theorem test_cmplt_V37 : after 3 (step (operands 0x94611000 0x00000000 0xFFFFFFFF)) = some (0x00000000, 0x104) := by decide
theorem test_cmplt_V38 : after 3 (step (operands 0x94611000 0x80000000 0x7FFFFFFF)) = some (0x00000001, 0x104) := by decide
theorem test_cmple_V44 : after 3 (step (operands 0x98611000 0x00000000 0xFFFFFFFF)) = some (0x00000000, 0x104) := by decide
theorem test_cmple_V45 : after 3 (step (operands 0x98611000 0x80000000 0x80000000)) = some (0x00000001, 0x104) := by decide
theorem test_shl_V50 : after 3 (step (operands 0xB0611000 0x80000001 0x00000001)) = some (0x00000002, 0x104) := by decide
theorem test_shl_V51 : after 3 (step (operands 0xB0611000 0x00000003 0xFFFFFFFF)) = some (0x80000000, 0x104) := by decide
theorem test_shr_V56 : after 3 (step (operands 0xB4611000 0x80000000 0x00000021)) = some (0x40000000, 0x104) := by decide
theorem test_shr_V57 : after 3 (step (operands 0xB4611000 0x12345678 0x00000008)) = some (0x00123456, 0x104) := by decide
theorem test_sra_V59 : after 3 (step (operands 0xB8611000 0x80000000 0x00000020)) = some (0x80000000, 0x104) := by decide
theorem test_sra_V62 : after 3 (step (operands 0xB8611000 0x80000000 0x00000001)) = some (0xC0000000, 0x104) := by decide
theorem test_addc_V66 : after 3 (step (operands 0xC0617FFF 0x00000005 0)) = some (0x00008004, 0x104) := by decide
theorem test_addc_V67 : after 3 (step (operands 0xC0618000 0x00000005 0)) = some (0xFFFF8005, 0x104) := by decide
theorem test_subc_V68 : after 3 (step (operands 0xC4618000 0x00000000 0)) = some (0x00008000, 0x104) := by decide
theorem test_subc_V70 : after 3 (step (operands 0xC4610001 0x80000000 0)) = some (0x7FFFFFFF, 0x104) := by decide
theorem test_mulc_V71 : after 3 (step (operands 0xC861FFFF 0x00000003 0)) = some (0xFFFFFFFD, 0x104) := by decide
theorem test_mulc_V73 : after 3 (step (operands 0xC8617FFF 0x12345678 0)) = some (0x1907A988, 0x104) := by decide
theorem test_divc_V76 : after 3 (step (operands 0xCC61FFF9 0x00000064 0)) = some (0xFFFFFFF2, 0x104) := by decide
theorem test_divc_V77 : after 3 (step (operands 0xCC61FFFF 0x80000000 0)) = some (0x80000000, 0x104) := by decide
theorem test_andc_V78 : after 3 (step (operands 0xE061FF00 0x12345678 0)) = some (0x12345600, 0x104) := by decide
theorem test_andc_V79 : after 3 (step (operands 0xE06100FF 0x12345678 0)) = some (0x00000078, 0x104) := by decide
theorem test_orc_V80 : after 3 (step (operands 0xE4618000 0x12345678 0)) = some (0xFFFFD678, 0x104) := by decide
theorem test_orc_V81 : after 3 (step (operands 0xE4617FFF 0x00000000 0)) = some (0x00007FFF, 0x104) := by decide
theorem test_xorc_V82 : after 3 (step (operands 0xE861FFFF 0x12345678 0)) = some (0xEDCBA987, 0x104) := by decide
theorem test_xorc_V83 : after 3 (step (operands 0xE86100FF 0x0000FFFF 0)) = some (0x0000FF00, 0x104) := by decide
theorem test_xnorc_V84 : after 3 (step (operands 0xEC61FFFF 0x12345678 0)) = some (0x12345678, 0x104) := by decide
theorem test_xnorc_V85 : after 3 (step (operands 0xEC610000 0x12345678 0)) = some (0xEDCBA987, 0x104) := by decide
theorem test_cmpeqc_V86 : after 3 (step (operands 0xD061FFFF 0xFFFFFFFF 0)) = some (0x00000001, 0x104) := by decide
theorem test_cmpeqc_V87 : after 3 (step (operands 0xD061FFFF 0x0000FFFF 0)) = some (0x00000000, 0x104) := by decide
theorem test_cmpltc_V90 : after 3 (step (operands 0xD461FFFF 0x00000000 0)) = some (0x00000000, 0x104) := by decide
theorem test_cmpltc_V91 : after 3 (step (operands 0xD4618000 0x80000000 0)) = some (0x00000001, 0x104) := by decide
theorem test_cmplec_V93 : after 3 (step (operands 0xD8617FFF 0x00007FFF 0)) = some (0x00000001, 0x104) := by decide
theorem test_cmplec_V94 : after 3 (step (operands 0xD861FFFF 0x00000000 0)) = some (0x00000000, 0x104) := by decide
theorem test_shlc_V99 : after 3 (step (operands 0xF061FFFF 0x00000001 0)) = some (0x80000000, 0x104) := by decide
theorem test_shlc_V100 : after 3 (step (operands 0xF0610008 0xDEADBEEF 0)) = some (0xADBEEF00, 0x104) := by decide
theorem test_shrc_V101 : after 3 (step (operands 0xF4610008 0xDEADBEEF 0)) = some (0x00DEADBE, 0x104) := by decide
theorem test_shrc_V102 : after 3 (step (operands 0xF461FFFF 0x80000000 0)) = some (0x00000001, 0x104) := by decide
theorem test_srac_V105 : after 3 (step (operands 0xF861FFFF 0x80000000 0)) = some (0xFFFFFFFF, 0x104) := by decide
theorem test_srac_V107 : after 3 (step (operands 0xF8617FE4 0x80000000 0)) = some (0xF8000000, 0x104) := by decide
/-- A zero divisor: no exception, the free value of the dividend (D5). -/
theorem test_div_by_zero : after 3 (step (operands 0x8C611000 7 0)) = some (Config.divByZero 7, 0x104) := by rfl

/-! Control transfer, loads and store, the privileged opcode (vectors of 2.4 to 2.6) -/

theorem test_beq_B6 : after 1 (step (machine 0x200 [(0x200, 0x70210001)] [])) = some (0x204, 0x208) := by decide
theorem test_beq_B9 : after 31 (step (machine 0 [(0, 0x73FF8000)] [])) = some (0, 0x7FFE0004) := by decide
theorem test_bne_B8 : after 2 (step (machine 0x100 [(0x100, 0x74417FFF)] [(1, 1)])) = some (0x104, 0x20100) := by decide
theorem test_bne_B12 : after 1 (step (machine 0xFFFFFFFC [(0x7FFFFFFC, 0x743F0000)] [])) = some (0x80000000, 0x80000000) := by decide
theorem test_jmp_J1 : after 31 (step (machine 0x200 [(0x200, 0x6FFC0000)] [(28, 0x80000123)])) = some (0, 0x120) := by decide
theorem test_jmp_J7 : after 2 (step (machine 0x80000300 [(0x300, 0x6C410000)] [(1, 0xFFFFFFFF)])) = some (0x80000304, 0xFFFFFFFC) := by
  decide
theorem test_ld_M2 : after 2 (step (machine 0x100 [(0x100, 0x6041FFFC), (0xFFC, 0x11223344)] [(1, 0x1000)])) = some (0x11223344, 0x104) := by
  decide
theorem test_ld_M6 : after 2 (step (machine 0x100 [(0x100, 0x60410008), (4, 9)] [(1, 0xFFFFFFFC)])) = some (9, 0x104) := by decide
theorem test_ldr_M12 : after 0 (step (machine 0x80000100 [(0x100, 0x7C000002), (0x10C, 0x12345678)] [(0, 0x9999)])) =
    some (0x12345678, 0x80000104) := by decide
theorem test_ldr_M13 : after 0 (step (machine 0 [(0, 0x7C1FFFFE), (0xFFFFFFFC, 5)] [])) = some (5, 4) := by decide
theorem test_st_M7 : afterMem 0x1008 (step (machine 0x100 [(0x100, 0x64410008)] [(1, 0x1000), (2, 0xDEADBEEF)])) =
    some (0xDEADBEEF, 0x104) := by decide
theorem test_st_M8 : afterMem 0x1000 (step (machine 0x100 [(0x100, 0x67E10000), (0x1000, 7)] [(1, 0x1000)])) = some (0, 0x104) := by decide
theorem test_priv_E2 : after 30 (step (machine 0x100 [(0x100, 0)] [])) = some (0x104, 0x80000004) := by decide
theorem test_priv_E7 : refusalOf (step (machine 0x80000100 [(0x100, 0)] [])) = some .privilegedUndefined := by decide
theorem test_unassigned_E3 : after 30 (step (machine 0x200 [(0x200, 0xFFFFFFFF)] [])) = some (0x204, 0x80000004) := by decide
theorem test_unassigned_E6 : faultOf (step (machine 0x80000100 [(0x100, 0x04000000)] [])) = some .supervisorFault := by decide

/-! Interrupts (E8, E9) and reset (E1) -/

/-- `s` with requests pending at the next boundary and the environment's choice. -/
def interrupted (s : State) (pending : List IrqSource) (take : Option IrqSource) : State := { s with env := [⟨pending, take⟩] }

/-- A user-mode machine about to run `CMPEQC(R31,0,R3)`. -/
def userMachine : State := machine 0x100 [(0x100, 0xD07F0000)] []

/-- The same in supervisor mode. -/
def supervisorMachine : State := machine 0x80000100 [(0x100, 0xD07F0000)] []

theorem test_interrupt_E8 : after 30 (step (interrupted userMachine [5] (some 5))) = some (0x104, 0x8000000C) := by decide
theorem test_interrupt_E9 : after 3 (step (interrupted supervisorMachine [5] (some 5))) = some (1, 0x80000104) := by decide
theorem test_reset_E1 : State.reset.pc = 0x80000000 ∧ fetchAddress State.reset.pc = 0 ∧ Memory.wf State.reset.mem = true := by decide
theorem test_withFetchWord : after 3 (step ((State.reset.withFetchWord 32 0xD07F0000))) = some (1, 0x80000004) := by decide

/-! The assembler level (vectors of 2.7) -/

/-- The words of a macro assembled at 0x100. -/
def macroWords (m : Asm.Macro) : Option (List Word) := (m.expand 0x100).map fun code => code.map encode

theorem test_macro_moves : macroWords (.move 1 2) = some [0x8041F800] ∧ macroWords (.cmove 5 0) = some [0xC01F0005] ∧
    macroWords (.cmove (-1) 0) = some [0xC01FFFFF] ∧ macroWords (.cmove 32768 0) = none := by decide
theorem test_macro_stack : macroWords (.push 1) = some [0xC3BD0004, 0x643DFFFC] ∧ macroWords (.pop 1) = some [0x603DFFFC, 0xC7BD0004] ∧
    macroWords (.allocate 3) = some [0xC3BD000C] ∧ macroWords (.deallocate 3) = some [0xC7BD000C] := by decide
theorem test_macro_control : macroWords (.brLink 0x118 28) = some [0x739F0005] ∧ macroWords (.jmp 28) = some [0x6FFC0000] ∧
    macroWords (.bne 1 0x110) = some [0x77E10003] ∧ macroWords (.bf 1 0x110) = some [0x73E10003] ∧
    macroWords (.bt 1 0x110) = some [0x77E10003] := by decide
theorem test_macro_absolute : macroWords (.ld 0x100 3) = some [0x607F0100] ∧ macroWords (.st 3 0x100) = some [0x647F0100] ∧
    macroWords (.ld 0x8000 3) = none := by decide
/-! Witnesses: for every obligation with hypotheses, states and operands that meet them, at the ends of the ranges too -/

/-- The outcome is a next state with the property. -/
def holdsAfter (p : State → Bool) : Result → Bool
  | .next t => p t
  | _ => false

theorem exists_of_holdsAfter {p : State → Bool} {o : Result} (h : holdsAfter p o = true) : ∃ t, o = .next t ∧ p t = true := by
  cases o with
  | next t => exact ⟨t, rfl, h⟩
  | fault => cases h
  | refused => cases h

theorem exists_of_completes {o : Result} (h : holdsAfter (fun _ => true) o = true) : ∃ t, o = .next t := by
  obtain ⟨t, ht, -⟩ := exists_of_holdsAfter h
  exact ⟨t, ht⟩

/-- A machine about to run `ST(R2,8,R1)`, with R1 = 0x1000 and R2 = 0xDEADBEEF. -/
def storeMachine : State := machine 0x100 [(0x100, 0x64410008)] [(1, 0x1000), (2, 0xDEADBEEF)]

/-- `s` with another configuration. -/
def configured (s : State) (cfg : Config) : State := { s with cfg := cfg }

theorem witness_ResetHasTheInvariant : Memory.wf [(0, 1), (0xFFFFFFFF, 2)] = true ∧ Memory.wf [(1, 1), (0, 2)] = false ∧
    Memory.wf [(0x100000000, 0)] = false := by decide
theorem witness_StepKeepsTheInvariant : storeMachine.Inv ∧ ∃ t, step storeMachine = .next t :=
  ⟨⟨by decide, by decide⟩, exists_of_completes (by decide)⟩
theorem witness_RunsKeepInvariantAndConfiguration : (machine 0x80000014 [(0x14, 0x73FFFFFF)] []).Inv ∧
    ∃ t, RunsTo 3 (machine 0x80000014 [(0x14, 0x73FFFFFF)] []) t :=
  ⟨⟨by decide, by decide⟩, exists_of_completes (by decide)⟩
theorem witness_ModeChanges_by_interrupt : (interrupted userMachine [5] (some 5)).supervisor = false ∧
    ∃ t, step (interrupted userMachine [5] (some 5)) = .next t ∧ t.supervisor = true :=
  ⟨by decide, exists_of_holdsAfter (by decide)⟩
theorem witness_ModeChanges_by_illegal : (machine 0x7FFFFFFC [(0x7FFFFFFC, 0x04000000)] []).supervisor = false ∧
    ∃ t, step (machine 0x7FFFFFFC [(0x7FFFFFFC, 0x04000000)] []) = .next t ∧ t.supervisor = true :=
  ⟨by decide, exists_of_holdsAfter (by decide)⟩
theorem witness_ModeChanges_by_jump : (machine 0x80000200 [(0x200, 0x6FFC0000)] [(28, 0x40)]).supervisor = true ∧
    ∃ t, step (machine 0x80000200 [(0x200, 0x6FFC0000)] [(28, 0x40)]) = .next t ∧ (!t.supervisor) = true :=
  ⟨by decide, exists_of_holdsAfter (by decide)⟩
theorem witness_SupervisorBitIsTheOnlyInterruptMask : (interrupted supervisorMachine [5] (some 5)).supervisor = true ∧
    (interrupted userMachine [0, 5] (some 5)).supervisor = false ∧
    (interrupted userMachine [0, 5] (some 5)).sample.2 = some 5 ∧
    5 ∈ (interrupted userMachine [0, 5] (some 5)).sample.1.pending ∧
    vecIrq (interrupted userMachine [0, 5] (some 5)).cfg 5 = some 3 := by decide
theorem witness_ExceptionEntryFromUserMode : (machine 0 [] []).supervisor = false ∧ (machine 0x7FFFFFFC [] []).supervisor = false := by
  decide
theorem witness_InterruptDisplacesTheInstruction : (interrupted userMachine [5] (some 5)).env = ⟨[5], some 5⟩ :: [] ∧
    (⟨[5], some 5⟩ : Boundary).take = some 5 ∧ 5 ∈ (⟨[5], some 5⟩ : Boundary).pending ∧
    (interrupted userMachine [5] (some 5)).supervisor = false ∧ vecIrq (interrupted userMachine [5] (some 5)).cfg 5 = some 3 := by decide
theorem witness_DeferredInterruptRunsTheInstruction : (interrupted userMachine [5] none).sample.2 = none ∧
    (interrupted userMachine [] (some 5)).sample.2 = some 5 ∧ 5 ∉ (interrupted userMachine [] (some 5)).sample.1.pending := by decide
theorem witness_PrivilegedOpcodeInUserModeTraps : opcodeOf 0 = 0 ∧ opcodeOf 0x03FFFFFF = 0 ∧ opcodeOf 0x04000000 ≠ 0 ∧
    (machine 0x100 [] []).supervisor = false := by decide
theorem witness_PrivilegedOpcodeInSupervisorModeStops : supervisorMachine.supervisor = true ∧ supervisorMachine.cfg.privExec = .refuse ∧
    (configured supervisorMachine { config with privExec := .noInstruction }).cfg.privExec = .noInstruction ∧
    (configured supervisorMachine { config with privExec := .noInstruction }).cfg.supervisorFault = .fault := by decide

/-- A supervisor-mode machine at a word of opcode 0x00, whose PRIV_EXEC and SUPERVISOR_FAULT are its own. -/
def ownParameters : State :=
  configured (machine 0x80000100 [(0x100, 0x03FFFFFF)] []) { config with privExec := .implementation, supervisorFault := .implementation }

theorem witness_PrivilegedInstructionIsThePrivExecOutcome : ownParameters.supervisor = true ∧
    ownParameters.cfg.privExec = .implementation ∧ opcodeOf 0 = 0 ∧ decodeWord true 0 = .ok (.priv 0) ∧
    opcodeOf 0x03FFFFFF = 0 ∧ decodeWord true 0x03FFFFFF = .ok (.priv 0x3FFFFFF) := by decide
theorem witness_SupervisorFaultIsTheParameter : supervisorMachine.supervisor = true ∧ supervisorMachine.cfg.supervisorFault = .fault ∧
    ownParameters.supervisor = true ∧ ownParameters.cfg.supervisorFault = .implementation := by decide
/-- Where the implementation gives PRIV_EXEC, the step runs it on the state and the whole word. -/
theorem test_privExec_own : step ownParameters = ownParameters.privExec 0x03FFFFFF := by rfl
/-- An effect of a parameter in supervisor mode: R3 is written, the PC's bits 30:2 and a word of memory too, the Supervisor bit stays. -/
theorem test_applyEffect : after 3 (.next (supervisorMachine.applyEffect
      ⟨Vector.replicate 31 7, 0x41, [(0x80, 1), (0x80, 2)], []⟩)) = some (7, 0x80000104) ∧
    afterMem 0x200 (.next (supervisorMachine.applyEffect ⟨Vector.replicate 31 7, 0x41, [(0x80, 1), (0x80, 2)], []⟩)) =
      some (2, 0x80000104) := by decide
/-- A user-mode machine and a supervisor-mode one, each at a word of an unassigned opcode. -/
def illegalUser : State := machine 0x100 [(0x100, 0x04000000)] []
def illegalSupervisor : State := machine 0x80000100 [(0x100, 0xFC000000)] []

theorem witness_UnassignedOpcodeIsIllegal :
    illegalUser.sample.1.fetch = .ok (0x04000000, illegalUser) ∧ opcodeOf 0x04000000 ∈ unassignedOpcodes true ∧
    NoInterrupt illegalUser ∧ illegalUser.supervisor = false ∧
    illegalSupervisor.sample.1.fetch = .ok (0xFC000000, illegalSupervisor) ∧ opcodeOf 0xFC000000 ∈ unassignedOpcodes true ∧
    NoInterrupt illegalSupervisor ∧ illegalSupervisor.supervisor = true :=
  ⟨rfl, by decide, rfl, by decide, rfl, by decide, rfl, by decide⟩
/-- The word of MUL on a machine without it, in user mode. -/
def lackingMul : State := configured (operands 0x88611000 1 1) { config with hasMulDiv := false }
theorem witness_UnassignedOpcode_optional : opcodeOf 0x88611000 ∈ unassignedOpcodes false ∧
    lackingMul.sample.1.fetch = .ok (0x88611000, lackingMul) ∧ lackingMul.cfg.hasMulDiv = false ∧ NoInterrupt lackingMul := ⟨by decide, rfl, rfl, rfl⟩
theorem witness_HandlerReturnsToUserMode : (machine 0 [] []).supervisor = false ∧ (machine 0 [] []).pc.toNat % 4 = 0 ∧
    (machine 0 [] []).pc ≠ 0x7FFFFFFC ∧ (machine 0x7FFFFFF8 [] []).supervisor = false ∧ (machine 0x7FFFFFF8 [] []).pc.toNat % 4 = 0 ∧
    (machine 0x7FFFFFF8 [] []).pc ≠ 0x7FFFFFFC := by decide
theorem witness_StepChangesOnlyTheDestination :
    (∃ t, step userMachine = .next t ∧ (t.reg 3 != userMachine.reg 3) = true) ∧
    (∃ t, step (interrupted userMachine [5] (some 5)) = .next t ∧
      (t.reg 30 != (interrupted userMachine [5] (some 5)).reg 30) = true) :=
  ⟨exists_of_holdsAfter (by decide), exists_of_holdsAfter (by decide)⟩
theorem witness_hasMulDiv : userMachine.cfg.hasMulDiv = true ∧
    (configured userMachine { config with hasMulDiv := false }).cfg.hasMulDiv = false := by decide
/-- E5: where the machine lacks MUL, its word traps in user mode. -/
theorem witness_lacking_mul : after 30 (step lackingMul) =
    some (0x104, 0x80000004) := by decide
/-- The first and the last word of the address space are reached; a misaligned address and one past the backed cells are not. -/
theorem witness_Reaches : Reaches userMachine 0 0 ∧ Reaches userMachine 0xFFFFFFFC 0xFFFFFFFC ∧
    dataCell config 0x1001 = .error .misaligned ∧
    dataCell { config with backed := [⟨0, 0x1000⟩] } 0xFFC = .ok 0xFFC ∧
    dataCell { config with backed := [⟨0, 0x1000⟩] } 0x1000 = .error (.unbacked 0x400) ∧
    dataCell { config with aliasBit31 := true } 0x80000004 = .ok 4 := ⟨rfl, rfl, rfl, rfl, rfl, rfl⟩
/-- A machine with storage at the first 4096 bytes only and a MEM_MAP of its own, about to run the word at 0xFF8, R1 = 0x1000. -/
def ownMemMap (pc iw : Word) : State :=
  configured (machine pc [(0xFF8, iw)] [(1, 0x1000), (2, 7)]) { config with backed := [⟨0, 0x1000⟩], unbacked := .implementation }

/-- The first unbacked word, the last one, and one that LDR reaches. -/
theorem witness_UnbackedAccessIsTheMemMapOutcome : (ownMemMap 0xFF8 0).cfg.unbacked = .implementation ∧
    dataCell (ownMemMap 0xFF8 0).cfg (BitVec.ofInt 32 (((ownMemMap 0xFF8 0).reg 1).toNat + (0 : Literal).toInt)) = .error (.unbacked 0x400) ∧
    dataCell (ownMemMap 0xFF8 0).cfg (BitVec.ofInt 32 (((ownMemMap 0xFF8 0).reg 31).toNat + (-4 : Literal).toInt)) =
      .error (.unbacked 0x3FFFFFFF) ∧
    dataCell (ownMemMap 0xFF8 0).cfg (BitVec.ofInt 32 ((((ownMemMap 0xFF8 0).pc.toNat + 4) % 2 ^ 31 : Nat) + 4 * (1 : Literal).toInt)) =
      .error (.unbacked 0x400) := ⟨rfl, rfl, rfl, rfl⟩
/-- A misaligned address, for LD and ST at any PC and for LDR at a PC no run reaches. -/
theorem witness_AccessThatReachesNoWordIsRefused : (machine 0x101 [] []).cfg.unbacked = .refuse ∧
    dataCell (machine 0x101 [] []).cfg (BitVec.ofInt 32 (((machine 0x101 [] []).reg 31).toNat + (1 : Literal).toInt)) = .error .misaligned ∧
    dataCell (machine 0x101 [] []).cfg (BitVec.ofInt 32 ((((machine 0x101 [] []).pc.toNat + 4) % 2 ^ 31 : Nat) + 4 * (0 : Literal).toInt)) =
      .error .misaligned := ⟨rfl, rfl, rfl⟩
theorem witness_UnbackedFetchIsTheMemMapOutcome : NoInterrupt (ownMemMap 0x1000 0) ∧ (ownMemMap 0x1000 0).pc.toNat % 4 = 0 ∧
    backedCell (ownMemMap 0x1000 0).cfg (fetchAddress (ownMemMap 0x1000 0).pc) = .error (.unbacked 0x400) ∧
    (ownMemMap 0x1000 0).cfg.unbacked = .implementation ∧
    (configured (ownMemMap 0x1000 0) { config with backed := [⟨0, 0x1000⟩] }).cfg.unbacked = .refuse := ⟨rfl, by decide, rfl, rfl, rfl⟩
/-- By default a load, a store and a fetch at an unbacked word are refused. -/
theorem test_unbacked_default : [(0x60410000 : Word), 0x64410000, 0x7C5F0001].all (fun iw =>
      refusalOf (step (configured (ownMemMap 0xFF8 iw) { config with backed := [⟨0, 0x1000⟩] })) == some .unbackedAccess) = true ∧
    refusalOf (step (configured (ownMemMap 0x1000 0) { config with backed := [⟨0, 0x1000⟩] })) = some .unbackedAccess := by decide
/-- Under a MEM_MAP of its own the load is that MEM_MAP's, which sees the PC advanced: where it gives the access a meaning, R2 holds its word. -/
theorem test_unbacked_own (e : AccessEffect) (h : Config.unbackedOutcome (ownMemMap 0xFFC 0x60410000).view .read 0x400 = some e) :
    (step (ownMemMap 0xFF8 0x60410000)) = .next (((ownMemMap 0xFFC 0x60410000).afterAccess e).setReg 2 e.value) := by
  have hr : (ownMemMap 0xFF8 0x60410000).advance.memRead 0x1000 = .ok (e.value, (ownMemMap 0xFFC 0x60410000).afterAccess e) := by
    show State.readCell (ownMemMap 0xFFC 0x60410000) (.error (.unbacked 0x400)) = _
    unfold State.readCell State.accessNoStorage
    dsimp only
    rw [show (ownMemMap 0xFFC 0x60410000).cfg.unbacked = .implementation from rfl, h]
  show State.load (ownMemMap 0xFF8 0x60410000) 2 0x1000 = _
  rw [State.load, hr]
/-- The side effects of such an access: a word stored, no register written. -/
theorem test_afterAccess : after 2 (.next ((ownMemMap 0xFF8 0).afterAccess ⟨9, [(0x80, 1), (0x80, 3)], []⟩)) = some (7, 0xFF8) ∧
    afterMem 0x200 (.next ((ownMemMap 0xFF8 0).afterAccess ⟨9, [(0x80, 1), (0x80, 3)], []⟩)) = some (3, 0xFF8) := by decide
theorem witness_LoadRelative : userMachine.pc.toNat % 4 = 0 ∧ (machine 0x7FFFFFFC [] []).pc.toNat % 4 = 0 := by decide
theorem witness_MisalignedAccessFollowsThePolicy : (1 : Word).toNat % 4 ≠ 0 ∧ (0xFFFFFFFF : Word).toNat % 4 ≠ 0 ∧
    config.misaligned = .refuse ∧ ({ config with misaligned := .ignoreLowBits } : Config).misaligned = .ignoreLowBits := by decide
/-- M9: under ignore_low_bits the load at 0x1001 reads the word at 0x1000. -/
theorem witness_ignoreLowBits : after 2 (step (configured (machine 0x100 [(0x100, 0x60410000), (0x1000, 77)] [(1, 0x1001)])
    { config with misaligned := .ignoreLowBits })) = some (77, 0x104) := by decide
theorem witness_FlatMapReachesEveryAlignedWord : config.backed = [⟨0, 2 ^ 32⟩] ∧ config.aliasBit31 = false ∧
    (0xFFFFFFFC : Word).toNat % 4 = 0 ∧
    cellBacked { config with backed := [⟨0, 0xFFE⟩] } (cellOf { config with backed := [⟨0, 0xFFE⟩] } 0xFFC + 2) = false := by decide
theorem witness_LoadReturnsTheLatestStore : Reaches storeMachine (storeMachine.baseAddress 1 8) 0x1008 ∧
    (∃ t, exec (.st 2 1 8) storeMachine = .next t ∧ (t.cfg == config) = true) ∧
    dataCell config 0x1008 = .ok 0x1008 ∧ dataCell config 0x100C = .ok 0x100C :=
  ⟨rfl, exists_of_holdsAfter (by decide), rfl, rfl⟩
theorem witness_StoreIsSeenByTheNextFetch : storeMachine.pc.toNat % 4 = 0 ∧
    (∃ t, exec (.st 2 31 0x104) storeMachine = .next t) ∧
    Reaches storeMachine (storeMachine.baseAddress 31 0x104) 0x104 ∧
    backedCell storeMachine.cfg (fetchAddress (nextPc storeMachine.pc)) = .ok 0x104 :=
  ⟨by decide, exists_of_completes (by decide), rfl, rfl⟩
theorem witness_OnlyLoadsAndStoreTouchMemory : touchesMemory (.add 3 1 2 0) = false ∧ ¬ ParameterActs (.add 3 1 2 0) userMachine ∧
    ∃ t, exec (.add 3 1 2 0) userMachine = .next t :=
  ⟨rfl, by unfold ParameterActs; decide, exists_of_completes (by decide)⟩
theorem witness_StepChangesMemoryOnlyByStore :
    (∃ t, step storeMachine = .next t ∧ (t.byteAt 0x1008 == 0xEF) = true) ∧ (∃ t, step userMachine = .next t) :=
  ⟨exists_of_holdsAfter (by decide), exists_of_completes (by decide)⟩
theorem witness_EncodeOfDecodeIsTheWord : decodeWord true 0x806117FF = .ok (.add 3 1 2 0x7FF) := by decide
theorem witness_OpcodeAloneSelects : opcodeOf 0x80611000 ∉ unassignedOpcodes false ∧ opcodeOf 0x88611000 ∉ unassignedOpcodes true ∧
    opcodeOf 0x88611000 ∈ unassignedOpcodes false ∧ opcodeOf 0x04000000 ∈ unassignedOpcodes true := by decide
theorem witness_StepRunsTheDecodedInstruction : userMachine.sample.1.fetch = .ok (0xD07F0000, userMachine) ∧
    decodeWord userMachine.cfg.hasMulDiv 0xD07F0000 = .ok (.cmpeqc 3 31 0) ∧ NoInterrupt userMachine ∧ userMachine.pc.toNat % 4 = 0 ∧
    backedCell userMachine.cfg (fetchAddress userMachine.pc) = .ok 0x100 ∧
    decodeBytes userMachine.cfg.byteOrder userMachine.cfg.hasMulDiv
      [userMachine.byteAt 0x100, userMachine.byteAt 0x101, userMachine.byteAt 0x102, userMachine.byteAt 0x103] = .ok (.cmpeqc 3 31 0) :=
  ⟨rfl, by decide, rfl, by decide, rfl, by decide⟩
theorem witness_BranchLiteralReachesTheLabel : Asm.branchLiteral? 0 131072 = some 32767 ∧ Asm.branchLiteral? 0 131076 = none ∧
    Asm.branchLiteral? 131068 0 = some (-32768) ∧ Asm.branchLiteral? 131072 0 = none ∧ Asm.branchLiteral? 0 2 = none ∧
    Asm.branchLiteral? ((0x80000010 : Word).toNat % 2 ^ 31 : Nat) 0x20 = some 3 := by decide
theorem witness_PushStoresAtTheOldTop : (1 : Reg) ≠ Asm.SP ∧
    Reaches (machine 0x100 [] [(29, 0x1000)]) ((machine 0x100 [] [(29, 0x1000)]).reg Asm.SP) 0x1000 ∧
    Reaches (machine 0x100 [] [(29, 0xFFFFFFFC)]) ((machine 0x100 [] [(29, 0xFFFFFFFC)]).reg Asm.SP) 0xFFFFFFFC :=
  ⟨by decide, rfl, rfl⟩
theorem witness_PopLoadsTheTop : (1 : Reg) ≠ Asm.SP ∧
    Reaches (machine 0x100 [] [(29, 0x1004)]) ((machine 0x100 [] [(29, 0x1004)]).reg Asm.SP - 4) 0x1000 ∧
    Reaches (machine 0x100 [] [(29, 0)]) ((machine 0x100 [] [(29, 0)]).reg Asm.SP - 4) 0xFFFFFFFC :=
  ⟨by decide, rfl, rfl⟩

/-- A machine one step before `BR(.)`, which lies at 0x104. -/
def lastStep : State := machine 0x100 [(0x100, 0xD07F0000), (0x104, 0x73FFFFFF)] []

/-- A machine at its end. -/
def atItsEnd : State := machine 0x104 [(0x104, 0x73FFFFFF)] []

theorem witness_EndOfRunIsABranchToItself : atItsEnd.atEnd 0x104 = true ∧ NoInterrupt atItsEnd ∧
    atItsEnd.sample.1.fetch = .ok (0x73FFFFFF, atItsEnd) ∧ backedCell atItsEnd.cfg (fetchAddress atItsEnd.pc) = .ok 0x104 ∧
    (machine 0x80000104 [(0x104, 0x73FFFFFF)] []).atEnd 0x104 = true ∧ lastStep.atEnd 0x104 = false ∧ lastStep.atEnd 0x100 = false :=
  ⟨by decide, rfl, rfl, rfl, by decide, by decide, by decide⟩
/-- The PC where a run ends, or the PC where an interrupt is about to leave it. -/
def endPc : RunOutcome → Option Word
  | .ended t => some t.pc
  | .interrupted t => some t.pc
  | _ => none
theorem witness_RunUntilIsTheFirstArrival : endPc (runUntil .excluded 0x104 1 lastStep) = some 0x104 ∧
    endPc (runUntil .included 0x104 0 lastStep) = none ∧
    endPc (runUntil .excluded 0x104 1 (interrupted lastStep [5] (some 5))) = some 0x100 ∧
    endPc (runUntil .included 0x104 1 (interrupted lastStep [5] (some 5))) = none := by decide

/-! Every little-endian machine has a big-endian twin with the same aligned words -/

/-- The bytes `f a` for the `n` addresses from `lo` up. -/
def tabulate (f : Nat → Byte) : Nat → Nat → Memory
  | _, 0 => []
  | lo, n + 1 => (lo, f lo) :: tabulate f (lo + 1) n

theorem read_tabulate (f : Nat → Byte) (n : Nat) : ∀ lo a, lo ≤ a → a < lo + n → Memory.read? (tabulate f lo n) a = some (f a) := by
  induction n with
  | zero => intro lo a h1 h2; omega
  | succ n ih =>
    intro lo a h1 h2
    rw [tabulate, Memory.read?]
    split
    · subst_vars; rfl
    · exact ih (lo + 1) a (by omega) (by omega)

/-- The big-endian twin of a machine: the bytes of every aligned word in the other order. -/
def bigTwin (s : State) : State :=
  { s with cfg := { s.cfg with byteOrder := .big }, mem := tabulate (fun a => Memory.byte s.mem (a / 4 * 4 + (3 - a % 4))) 0 (2 ^ 32) }

theorem witness_ByteOrderIsUnobservable (s : State) (h : s.cfg.byteOrder = .little) : SameWords s (bigTwin s) := by
  refine ⟨h, rfl, rfl, rfl, rfl, rfl, fun c hc hlt => ?_⟩
  have hb : ∀ k, k < 4 → Memory.byte (bigTwin s).mem (c + k) = Memory.byte s.mem (c + (3 - k)) := by
    intro k hk
    have hr := read_tabulate (fun a => Memory.byte s.mem (a / 4 * 4 + (3 - a % 4))) (2 ^ 32) 0 (c + k) (by omega) (by omega)
    unfold Memory.byte at hr ⊢
    rw [show (bigTwin s).mem = tabulate (fun a => Memory.byte s.mem (a / 4 * 4 + (3 - a % 4))) 0 (2 ^ 32) from rfl]
    unfold Memory.byte
    rw [hr, Option.getD_some, show (c + k) / 4 * 4 + (3 - (c + k) % 4) = c + (3 - k) by omega]
  have h0 := hb 0 (by omega)
  have h1 := hb 1 (by omega)
  have h2 := hb 2 (by omega)
  have h3 := hb 3 (by omega)
  simp only [Nat.add_zero, Nat.sub_zero] at h0 h1 h2 h3
  simp only [Memory.readWord, wordOfBytes, h0, h1, h2, h3, Nat.reduceSub, Nat.add_zero]

/-- A user-mode machine and its twin, whose step is an addition. -/
theorem witness_ByteOrderIsUnobservable_concrete : SameWords userMachine (bigTwin userMachine) :=
  witness_ByteOrderIsUnobservable userMachine (by decide)

end Sys2Proof.Tests
end

section
/-! Proofs about spec/10_state.md: the state after reset (R37) and register 31 (R21). -/

namespace Sys2Proof.Machine

/-! Reset -/

/-- Every register but 31 has its storage (10_state.md R20). -/
theorem reg_of_lt (s : State) (r : Reg) (h : r.toNat < 31) : s.reg r = s.regs[r.toNat] := dif_pos h

/-- The Supervisor bit masks every interrupt, whatever the environment chooses (60_exceptions.md R274). -/
theorem interruptTaken_supervisor (s : State) (choice : Option IrqSource) (hs : s.supervisor = true) :
    s.interruptTaken choice = none := by
  cases h : s.interruptTaken choice with
  | none => rfl
  | some v =>
    obtain ⟨-, -, huser, -⟩ := interruptTaken_some s choice v h
    exact absurd hs (by simp [huser])

theorem powerUp_supervisor (regs : Vector Word 31) (mem : Memory) (pending : List IrqSource) (env : List Boundary) (cfg : Config) :
    (State.powerUp regs mem pending env cfg).supervisor = true := by
  rw [supervisor_iff, powerUp_pc]
  decide

/-- The fetch address does not show the Supervisor bit that reset sets: execution begins at location 0 (10_state.md R37). -/
theorem fetchAddress_reset : fetchAddress 0x80000000 = 0 := by decide

/-- Settles O1: the PC alone fixes the mode, the mask and the fetch address; the rest is read off the draw. -/
theorem powerUpFixesPcAndModeOnly : Obligations.PowerUpFixesPcAndModeOnly := by
  intro regs mem pending env cfg s
  have hsup : s.supervisor = true := powerUp_supervisor regs mem pending env cfg
  exact ⟨powerUp_pc .., hsup, fun q => interruptTaken_supervisor s q hsup, fetchAddress_reset, reg_31 s, reg_of_lt s,
    powerUp_mem .., powerUp_pending ..⟩

/-! Register 31 as a destination -/

/-- A write of register 31 changes nothing, in the spelling of the definitions and statements. -/
theorem setReg_literal_31 (s : State) (v : Word) : s.setReg 31 v = s := setReg_31 s v

theorem operate_31 (s : State) (v : Word) : s.operate 31 v = .next s.advance := by
  rw [State.operate, State.writeAndAdvance, setReg_literal_31]

/-- A load whose read is made writes the word in the state after the read (45_load_store.md R210, R211). -/
theorem load_of_memRead_ok {s t : State} {ea v : Word} (rc : Reg) (h : s.advance.memRead ea = .ok (v, t)) :
    s.load rc ea = .next (t.setReg rc v) := by
  rw [State.load, h]

/-- A load whose read has no meaning has none. -/
theorem load_of_memRead_error {s : State} {ea : Word} {r : Refusal} (rc : Reg) (h : s.advance.memRead ea = .error r) :
    s.load rc ea = .refused r := by
  rw [State.load, h]

/-- With no link written, a branch is its transfer alone. -/
theorem branch_31 (s : State) (taken : Bool) (lit : Literal) :
    s.branch taken 31 lit = .next (s.setPc (if taken then branchTarget (nextPc s.pc) lit else nextPc s.pc)) := by
  rw [State.branch, setReg_literal_31]

theorem execJmp_31 (s : State) (ra : Reg) : execJmp 31 ra s = .next (s.setPc (jumpPc s.pc (s.reg ra))) := by
  rw [execJmp, setReg_literal_31]

/-- Settles O17: each shape of instruction ends in a write of Rc, which `setReg_literal_31` discards. -/
theorem registerThirtyOneIsZero : Obligations.RegisterThirtyOneIsZero := by
  refine ⟨reg_31, setReg_literal_31, operate_31, fun s ea => ?load, branch_31, fun s ra _ => execJmp_31 s ra⟩
  cases hread : s.advance.memRead ea with
  | error r => exact load_of_memRead_error 31 hread
  | ok read =>
    obtain ⟨v, t⟩ := read
    exact (load_of_memRead_ok 31 hread).trans (congrArg _ (setReg_literal_31 t v))

end Sys2Proof.Machine
end

section
/-! Proofs about spec/20_memory.md: what touches no data memory (R52). -/

namespace Sys2Proof.Machine

/-! Running on another memory -/

/-- The same outcome on another memory: a next state holds it in place of its own, a stop is as it was. -/
def replaceMem (m : Memory) : Result → Result
  | .next t => .next { t with mem := m }
  | .fault f => .fault f
  | .refused r => .refused r

@[simp] theorem replaceMem_next (m : Memory) (t : State) : replaceMem m (.next t) = .next { t with mem := m } := rfl
@[simp] theorem replaceMem_fault (m : Memory) (f : Fault) : replaceMem m (.fault f) = .fault f := rfl
@[simp] theorem replaceMem_refused (m : Memory) (r : Refusal) : replaceMem m (.refused r) = .refused r := rfl

theorem setReg_withMem (s : State) (m : Memory) (r : Reg) (v : Word) :
    State.setReg { s with mem := m } r v = { s.setReg r v with mem := m } := by
  unfold State.setReg
  split <;> rfl

theorem operate_withMem (s : State) (m : Memory) (rc : Reg) (v : Word) :
    State.operate { s with mem := m } rc v = replaceMem m (s.operate rc v) := by
  simp only [State.operate, State.writeAndAdvance, setReg_withMem, replaceMem_next]
  rfl

/-- A link write followed by a transfer: the common form of branches, JMP and exception entry. -/
theorem setReg_setPc_withMem (s : State) (m : Memory) (r : Reg) (v target : Word) :
    (State.setReg { s with mem := m } r v).setPc target = { (s.setReg r v).setPc target with mem := m } := by
  rw [setReg_withMem]
  rfl

theorem branch_withMem (s : State) (m : Memory) (taken : Bool) (rc : Reg) (lit : Literal) :
    State.branch { s with mem := m } taken rc lit = replaceMem m (s.branch taken rc lit) :=
  congrArg _ (setReg_setPc_withMem s m rc _ _)

theorem execJmp_withMem (s : State) (m : Memory) (rc ra : Reg) :
    execJmp rc ra { s with mem := m } = replaceMem m (execJmp rc ra s) :=
  congrArg _ (setReg_setPc_withMem s m rc _ _)

/-- Exception entry does not depend on the memory (60_exceptions.md R284). -/
theorem enterException_withMem (s : State) (m : Memory) (v : VectorIndex) :
    State.enterException { s with mem := m } v = { s.enterException v with mem := m } :=
  setReg_setPc_withMem s m xp _ _

/-! Illegal instructions: the memory is seen only by the implementation's own SUPERVISOR_FAULT or PRIV_EXEC -/

/-- By default SUPERVISOR_FAULT stops the machine (46_privileged_illegal.md R234, D9). -/
theorem supervisorFault_of_ne_implementation (s : State) (hf : s.cfg.supervisorFault ≠ .implementation) :
    s.supervisorFault = .fault .supervisorFault := by
  unfold State.supervisorFault
  split
  · rfl
  · exact absurd ‹_› hf

theorem raiseIllegal_withMem (s : State) (m : Memory)
    (hf : s.supervisor = true → s.cfg.supervisorFault ≠ .implementation) :
    State.raiseIllegal { s with mem := m } = replaceMem m s.raiseIllegal := by
  cases hs : s.supervisor with
  | false =>
    rw [raiseIllegal_user s hs, raiseIllegal_user { s with mem := m } hs, withMem_cfg, enterException_withMem, replaceMem_next]
  | true =>
    rw [raiseIllegal_supervisor s hs, raiseIllegal_supervisor { s with mem := m } hs,
      supervisorFault_of_ne_implementation s (hf hs), supervisorFault_of_ne_implementation { s with mem := m } (hf hs),
      replaceMem_fault]

/-- An optional operate instruction, present or lacking, where no parameter stands for it. -/
theorem optional_operate_withMem {i : Instr} {s : State} (m : Memory) (rc : Reg) (v : Word) (hi : i.opcode ∈ optionalOpcodes)
    (hp : ¬ ParameterActs i s) :
    State.optional { s with mem := m } (State.operate { s with mem := m } rc v) = replaceMem m (s.optional (s.operate rc v)) := by
  cases hm : s.cfg.hasMulDiv with
  | true => rw [optional_present s _ hm, optional_present { s with mem := m } _ hm, operate_withMem]
  | false =>
    rw [optional_absent s _ hm, optional_absent { s with mem := m } _ hm]
    exact raiseIllegal_withMem s m fun hs hf => hp ⟨hs, .inr ⟨hi, hm, hf⟩⟩

/-- In user mode opcode 0x00 is an illegal instruction (46_privileged_illegal.md R231). -/
theorem execPriv_user (s : State) (body : BitVec 26) (hs : s.supervisor = false) : execPriv body s = s.raiseIllegal := by
  simp [execPriv, hs]

/-- In supervisor mode it is PRIV_EXEC of the word (46_privileged_illegal.md R230). -/
theorem execPriv_supervisor (s : State) (body : BitVec 26) (hs : s.supervisor = true) :
    execPriv body s = s.privExec (encode (.priv body)) := by
  simp [execPriv, hs]

theorem execPriv_withMem {s : State} (m : Memory) (body : BitVec 26) (hp : ¬ ParameterActs (.priv body) s) :
    execPriv body { s with mem := m } = replaceMem m (execPriv body s) := by
  cases hs : s.supervisor with
  | false =>
    rw [execPriv_user s body hs, execPriv_user { s with mem := m } body hs]
    exact raiseIllegal_withMem s m fun ht => absurd (hs.symm.trans ht) Bool.false_ne_true
  | true =>
    rw [execPriv_supervisor s body hs, execPriv_supervisor { s with mem := m } body hs]
    cases hc : s.cfg.privExec with
    | refuse => simp only [State.privExec, hc, replaceMem_refused]
    | noInstruction =>
      simp only [State.privExec, hc]
      exact raiseIllegal_withMem s m fun _ hf => hp ⟨hs, .inl ⟨rfl, .inr ⟨hc, hf⟩⟩⟩
    | implementation => exact absurd ⟨hs, .inl ⟨rfl, .inl hc⟩⟩ hp

/-! Every instruction but LD, LDR and ST -/

/-- On another memory the instruction has the same outcome, next state or stop, with that memory kept (20_memory.md R52). -/
theorem exec_withMem (i : Instr) (s : State) (m : Memory) (hi : touchesMemory i = false) (hp : ¬ ParameterActs i s) :
    exec i { s with mem := m } = replaceMem m (exec i s) := by
  cases i with
  | ld | ldr | st => exact absurd hi Bool.noConfusion
  | priv body => exact execPriv_withMem m body hp
  | jmp rc ra => exact execJmp_withMem s m rc ra
  | beq rc | bne rc => exact branch_withMem s m _ rc _
  | mul rc | mulc rc | div rc | divc rc =>
    exact optional_operate_withMem m rc _ (by simp [Instr.opcode, optionalOpcodes]) hp
  | add rc | sub rc | cmpeq rc | cmplt rc | cmple rc | and rc | or rc | xor rc | xnor rc | shl rc | shr rc | sra rc
  | addc rc | subc rc | cmpeqc rc | cmpltc rc | cmplec rc | andc rc | orc rc | xorc rc | xnorc rc | shlc rc | shrc rc | srac rc =>
    exact operate_withMem s m rc _

/-- What comes out the same over every memory, with that memory kept, keeps the memory it is given: take the state's own. -/
theorem mem_eq_of_replaceMem {s t : State} {meaning : State → Result}
    (hm : ∀ m : Memory, meaning { s with mem := m } = replaceMem m (meaning s)) (h : meaning s = .next t) : t.mem = s.mem := by
  have hown : Host.Outcome.next t = replaceMem s.mem (.next t) := by
    rw [← h]
    exact hm s.mem
  rw [replaceMem_next] at hown
  have hstate := Host.Outcome.next.inj hown
  rw [hstate]

/-- Settles O42: an instruction's outcome is the same on every memory (`exec_withMem`), so it leaves its own as it is; exception entry
writes XP and the PC alone. -/
theorem onlyLoadsAndStoreTouchMemory : Obligations.OnlyLoadsAndStoreTouchMemory := by
  refine ⟨fun i s t m hi hp h => ⟨?mem, ?other⟩, fun s v m => ⟨enterException_mem s v, enterException_withMem s m v⟩⟩
  case mem => exact mem_eq_of_replaceMem (fun m => exec_withMem i s m hi hp) h
  case other => rw [exec_withMem i s m hi hp, h, replaceMem_next]

end Sys2Proof.Machine
end

section
/-! Proofs about spec/40_arithmetic.md: ADD, ADDC, SUB and SUBC (R110 to R113), and the encoding and effect every operate instruction
shares (R118). -/

namespace Sys2Proof.Machine

/-! Every operate instruction: its encoding and its one effect -/

/-- A Without-Literal entry of the opcode map serves every machine that has the opcode (30_encoding.md R81, R89). -/
theorem decodesOperate_of_decodeAssigned {op : BitVec 6} {mk : Reg → Reg → Reg → BitVec 11 → Instr}
    (hmap : ∀ w, opcodeOf w = op → decodeAssigned w = .ok (decodeOperate mk w)) : DecodesOperate op mk := by
  rintro hasMulDiv w hpresent rfl
  exact (decodeWord_of_present hasMulDiv w hpresent).trans (hmap w rfl)

/-- A With-Literal entry of the opcode map serves every machine that has the opcode (30_encoding.md R82, R89). -/
theorem decodesLiteral_of_decodeAssigned {op : BitVec 6} {mk : Reg → Reg → Literal → Instr}
    (hmap : ∀ w, opcodeOf w = op → decodeAssigned w = .ok (decodeLiteral mk w)) : DecodesLiteral op mk := by
  rintro hasMulDiv w hpresent rfl
  exact (decodeWord_of_present hasMulDiv w hpresent).trans (hmap w rfl)

/-- What ends as an operate instruction has that one effect: Rc and the PC are written, nothing else (40_arithmetic.md R118). -/
theorem operateEffect_of_exec {i : Instr} {s : State} {rc : Reg} {v : Word} (h : exec i s = s.operate rc v) :
    OperateEffect i s rc v :=
  ⟨s.writeAndAdvance rc v, h, reg_writeAndAdvance s rc v, writeAndAdvance_pc s rc v, writeAndAdvance_byteAt s rc v,
    writeAndAdvance_pending s rc v, writeAndAdvance_env s rc v, writeAndAdvance_cfg s rc v⟩

/-! Sums and differences modulo 2^32 -/

/-- A word is its own number modulo 2^32 (40_arithmetic.md R119). -/
theorem ofInt_toNat (a : Word) : BitVec.ofInt 32 a.toNat = a := by
  rw [BitVec.ofInt_natCast, BitVec.ofNat_toNat, BitVec.setWidth_eq]

theorem sumWord_eq_ofNat (a b : Word) : sumWord a b = BitVec.ofNat 32 (a.toNat + b.toNat) :=
  BitVec.add_def a b

theorem sumWord_sext32 (a : Word) (lit : Literal) : sumWord a (sext32 lit) = BitVec.ofInt 32 (a.toNat + lit.toInt) :=
  add_sext32 a lit

/-- The subtrahend matters modulo 2^32 only. -/
theorem differenceWord_ofInt (a : Word) (n : Int) : differenceWord a (BitVec.ofInt 32 n) = BitVec.ofInt 32 (a.toNat - n) := by
  rw [differenceWord, BitVec.sub_eq_iff_eq_add, ← BitVec.ofInt_add, Int.sub_add_cancel, ofInt_toNat]

theorem differenceWord_eq_ofInt (a b : Word) : differenceWord a b = BitVec.ofInt 32 (a.toNat - b.toNat) := by
  rw [← differenceWord_ofInt, ofInt_toNat]

/-- Sign extension is the literal's signed value modulo 2^32 (30_encoding.md R84). -/
theorem differenceWord_sext32 (a : Word) (lit : Literal) : differenceWord a (sext32 lit) = BitVec.ofInt 32 (a.toNat - lit.toInt) :=
  differenceWord_ofInt a lit.toInt

/-- Settles O21: the encodings are entries of the opcode map; each instruction ends as the operate instructions do, in a word that is the
sum or difference modulo 2^32. -/
theorem addAndSubtractWrapModuloTwoToThe32 : Obligations.AddAndSubtractWrapModuloTwoToThe32 := by
  refine ⟨⟨?decodeAdd, ?decodeAddc, ?decodeSub, ?decodeSubc⟩, fun s rc ra rb u lit => ⟨?add, ?addc, ?sub, ?subc⟩⟩
  case decodeAdd | decodeSub => exact decodesOperate_of_decodeAssigned fun w hop => by rw [decodeAssigned, hop]; rfl
  case decodeAddc | decodeSubc => exact decodesLiteral_of_decodeAssigned fun w hop => by rw [decodeAssigned, hop]; rfl
  case add => exact operateEffect_of_exec (congrArg (s.operate rc) (sumWord_eq_ofNat (s.reg ra) (s.reg rb)))
  case addc => exact operateEffect_of_exec (congrArg (s.operate rc) (sumWord_sext32 (s.reg ra) lit))
  case sub => exact operateEffect_of_exec (congrArg (s.operate rc) (differenceWord_eq_ofInt (s.reg ra) (s.reg rb)))
  case subc => exact operateEffect_of_exec (congrArg (s.operate rc) (differenceWord_sext32 (s.reg ra) lit))

end Sys2Proof.Machine
end

section
/-! Proofs about spec/41_logical.md: AND, OR, XOR, XNOR and their literal forms (R130 to R137). -/

namespace Sys2Proof.Machine

/-! The logical functions, bit by bit -/

theorem getLsbD_andWord (a b : Word) (k : Nat) : (andWord a b).getLsbD k = (a.getLsbD k && b.getLsbD k) := BitVec.getLsbD_and

theorem getLsbD_orWord (a b : Word) (k : Nat) : (orWord a b).getLsbD k = (a.getLsbD k || b.getLsbD k) := BitVec.getLsbD_or

theorem getLsbD_xorWord (a b : Word) (k : Nat) : (xorWord a b).getLsbD k = (a.getLsbD k ^^ b.getLsbD k) := BitVec.getLsbD_xor

/-- Complementing sets no bit above bit 31, so unlike the other three this one needs the bit to be of the word. -/
theorem getLsbD_xnorWord (a b : Word) (k : Nat) (hk : k < 32) : (xnorWord a b).getLsbD k = !(a.getLsbD k ^^ b.getLsbD k) := by
  rw [xnorWord, BitVec.getLsbD_not, BitVec.getLsbD_xor, decide_eq_true hk, Bool.true_and]

/-- Settles O24: each instruction ends as the operate instructions do, in the AND or OR of its operands, of which a literal one is extended
(`getLsbD_sext32`). -/
theorem andOrActBitByBit : Obligations.AndOrActBitByBit := by
  refine ⟨⟨?decodeAnd, ?decodeAndc, ?decodeOr, ?decodeOrc⟩, fun s rc ra rb u lit =>
    ⟨andWord (s.reg ra) (s.reg rb), andWord (s.reg ra) (sext32 lit), orWord (s.reg ra) (s.reg rb), orWord (s.reg ra) (sext32 lit),
      operateEffect_of_exec rfl, operateEffect_of_exec rfl, operateEffect_of_exec rfl, operateEffect_of_exec rfl,
      fun k hk => ⟨getLsbD_andWord .., ?andc, getLsbD_orWord .., ?orc⟩⟩⟩
  case decodeAnd | decodeOr => exact decodesOperate_of_decodeAssigned fun w hop => by rw [decodeAssigned, hop]; rfl
  case decodeAndc | decodeOrc => exact decodesLiteral_of_decodeAssigned fun w hop => by rw [decodeAssigned, hop]; rfl
  case andc => rw [getLsbD_andWord, getLsbD_sext32 lit k hk]
  case orc => rw [getLsbD_orWord, getLsbD_sext32 lit k hk]

/-- Settles O25: as for AND and OR, with the XOR of the operands or its complement. -/
theorem xorXnorActBitByBit : Obligations.XorXnorActBitByBit := by
  refine ⟨⟨?decodeXor, ?decodeXorc, ?decodeXnor, ?decodeXnorc⟩, fun s rc ra rb u lit =>
    ⟨xorWord (s.reg ra) (s.reg rb), xorWord (s.reg ra) (sext32 lit), xnorWord (s.reg ra) (s.reg rb), xnorWord (s.reg ra) (sext32 lit),
      operateEffect_of_exec rfl, operateEffect_of_exec rfl, operateEffect_of_exec rfl, operateEffect_of_exec rfl,
      fun k hk => ⟨getLsbD_xorWord .., ?xorc, getLsbD_xnorWord _ _ k hk, ?xnorc⟩⟩⟩
  case decodeXor | decodeXnor => exact decodesOperate_of_decodeAssigned fun w hop => by rw [decodeAssigned, hop]; rfl
  case decodeXorc | decodeXnorc => exact decodesLiteral_of_decodeAssigned fun w hop => by rw [decodeAssigned, hop]; rfl
  case xorc => rw [getLsbD_xorWord, getLsbD_sext32 lit k hk]
  case xnorc => rw [getLsbD_xnorWord _ _ k hk, getLsbD_sext32 lit k hk]

end Sys2Proof.Machine
end

section
/-! Proofs about spec/42_compare.md: CMPEQ and CMPEQC (R150, R151). -/

namespace Sys2Proof.Machine

/-- A compare writes the word one where its condition holds and the word zero where it does not. -/
theorem truthWord_decide (p : Prop) [Decidable p] : truthWord (decide p) = if p then 1 else 0 := by
  simp only [truthWord, decide_eq_true_eq]

theorem compareEq_eq_ite (a b : Word) : compareEq a b = if a = b then 1 else 0 := by
  rw [compareEq, beq_eq_decide, truthWord_decide]

theorem compareEq_eq_ite_toNat (a b : Word) : compareEq a b = if a.toNat = b.toNat then 1 else 0 := by
  simp only [compareEq_eq_ite, BitVec.toNat_inj]

/-- A word equals an extended literal in all 32 bits just where the two have one signed value (30_encoding.md R84). -/
theorem eq_sext32_iff (a : Word) (lit : Literal) : a = sext32 lit ↔ a.toInt = lit.toInt := by
  rw [← signed_sext32 lit, signed, BitVec.toInt_inj]

theorem compareEq_sext32 (a : Word) (lit : Literal) : compareEq a (sext32 lit) = if a.toInt = lit.toInt then 1 else 0 := by
  simp only [compareEq_eq_ite, eq_sext32_iff]

/-- Settles O26: each instruction ends as the operate instructions do, in the word that says whether its operands are equal, of which a
literal one is extended (`eq_sext32_iff`). -/
theorem compareEqualWritesOneOrZero : Obligations.CompareEqualWritesOneOrZero := by
  refine ⟨⟨?decodeCmpeq, ?decodeCmpeqc⟩, fun s rc ra rb u lit => ⟨?cmpeq, ?cmpeqc⟩⟩
  case decodeCmpeq => exact decodesOperate_of_decodeAssigned fun w hop => by rw [decodeAssigned, hop]; rfl
  case decodeCmpeqc => exact decodesLiteral_of_decodeAssigned fun w hop => by rw [decodeAssigned, hop]; rfl
  case cmpeq => exact operateEffect_of_exec (congrArg (s.operate rc) (compareEq_eq_ite_toNat (s.reg ra) (s.reg rb)))
  case cmpeqc => exact operateEffect_of_exec (congrArg (s.operate rc) (compareEq_sext32 (s.reg ra) lit))

end Sys2Proof.Machine
end

section
/-! Proofs about spec/43_shift.md: SRA and SRAC (R174, R175). -/

namespace Sys2Proof.Machine

/-- Copies of bit 31 entering make the shift the signed quotient by a power of two, rounded down as `Int`'s division by a positive number
rounds. -/
theorem shiftRightArith_eq_ofInt (a : Word) (n : Nat) : shiftRightArith a n = BitVec.ofInt 32 (a.toInt / 2 ^ n) := by
  rw [shiftRightArith, BitVec.sshiftRight, Int.shiftRight_eq_div_pow, Nat.cast_pow, Nat.cast_ofNat]

/-- The count is the register's low five bits (30_encoding.md R86). -/
theorem shiftRightArith_countOfWord (a b : Word) :
    shiftRightArith a (countOfWord b) = BitVec.ofInt 32 (a.toInt / 2 ^ (b.toNat % 32)) := by
  rw [shiftRightArith_eq_ofInt, countOfWord_eq]

/-- The count is the literal's low five bits (30_encoding.md R86). -/
theorem shiftRightArith_countOfLiteral (a : Word) (lit : Literal) :
    shiftRightArith a (countOfLiteral lit) = BitVec.ofInt 32 (a.toInt / 2 ^ (lit.toNat % 32)) := by
  rw [shiftRightArith_eq_ofInt, countOfLiteral_eq]

/-- Settles O29: the encodings are entries of the opcode map; each instruction ends as the operate instructions do, in the signed quotient
rounded down (`shiftRightArith_eq_ofInt`) by two to the count's low five bits. -/
theorem arithmeticShiftRoundsDown : Obligations.ArithmeticShiftRoundsDown := by
  refine ⟨⟨?decodeSra, ?decodeSrac⟩, fun s rc ra rb u lit => ⟨?sra, ?srac⟩⟩
  case decodeSra => exact decodesOperate_of_decodeAssigned fun w hop => by rw [decodeAssigned, hop]; rfl
  case decodeSrac => exact decodesLiteral_of_decodeAssigned fun w hop => by rw [decodeAssigned, hop]; rfl
  case sra => exact operateEffect_of_exec (congrArg (s.operate rc) (shiftRightArith_countOfWord (s.reg ra) (s.reg rb)))
  case srac => exact operateEffect_of_exec (congrArg (s.operate rc) (shiftRightArith_countOfLiteral (s.reg ra) lit))

end Sys2Proof.Machine
end

section
/-! Proofs about spec/45_load_store.md: LD (R210) and ST (R212) where the address reaches a word. -/

namespace Sys2Proof.Machine

/-! An access that reaches storage -/

/-- A read where the address reaches a word is of that word, and leaves the state as it is (20_memory.md R53). -/
theorem memRead_of_reaches {s : State} {ea : Word} {c : Nat} (h : Reaches s ea c) :
    s.memRead ea = .ok (Memory.readWord s.cfg.byteOrder s.mem c, s) := by
  rw [State.memRead, h, readCell_storage]

/-- A write where the address reaches a word is of that word (20_memory.md R54). -/
theorem memWrite_of_reaches {s : State} {ea : Word} {c : Nat} (v : Word) (h : Reaches s ea c) :
    s.memWrite ea v = .ok { s with mem := Memory.writeWord s.cfg.byteOrder s.mem c v } := by
  rw [State.memWrite, h]

/-- Which word an address reaches is a matter of the configuration alone, not of the PC. -/
theorem reaches_advance {s : State} {ea : Word} {c : Nat} : Reaches s.advance ea c ↔ Reaches s ea c := Iff.rfl

/-! The loads and the store, where the address reaches a word -/

/-- A load then ends as the operate instructions do, in the word read (45_load_store.md R210, R211). -/
theorem load_of_reaches {s : State} {ea : Word} {c : Nat} (rc : Reg) (h : Reaches s ea c) :
    s.load rc ea = s.operate rc (Memory.readWord s.cfg.byteOrder s.mem c) := by
  rw [load_of_memRead_ok rc (memRead_of_reaches (reaches_advance.mpr h)), setReg_advance]
  rfl

/-- ST then advances the PC and replaces the word (45_load_store.md R212). -/
theorem execSt_of_reaches {s : State} {rc ra : Reg} {lit : Literal} {c : Nat} (h : Reaches s (s.baseAddress ra lit) c) :
    execSt rc ra lit s = .next { s.advance with mem := Memory.writeWord s.cfg.byteOrder s.mem c (s.reg rc) } := by
  rw [execSt, memWrite_of_reaches (s.reg rc) (reaches_advance.mpr h)]
  rfl

/-- The address of LD and ST as a number modulo 2^32 (45_load_store.md R210, R212). -/
theorem baseAddress_eq_ofInt (s : State) (ra : Reg) (lit : Literal) :
    s.baseAddress ra lit = BitVec.ofInt 32 ((s.reg ra).toNat + lit.toInt) :=
  add_sext32 (s.reg ra) lit

/-- Settles O32: the encoding is an entry of the opcode map; the address is the base address (`baseAddress_eq_ofInt`), where a load ends as
the operate instructions do, in the word read there (`load_of_reaches`). -/
theorem loadReadsTheWord : Obligations.LoadReadsTheWord := by
  refine ⟨?decodeLd, fun s rc ra lit c hreach => ?ld⟩
  case decodeLd => exact decodesLiteral_of_decodeAssigned fun w hop => by rw [decodeAssigned, hop]; rfl
  case ld =>
    rw [← baseAddress_eq_ofInt] at hreach
    exact operateEffect_of_exec (load_of_reaches rc hreach)

/-- Settles O34: the encoding is an entry of the opcode map; ST ends in the advanced state with one word of memory replaced
(`execSt_of_reaches`), of which `byte_writeWord` says every byte. -/
theorem storeWritesTheWordAndNothingElse : Obligations.StoreWritesTheWordAndNothingElse := by
  refine ⟨?decodeSt, fun s rc ra lit c hreach => ?st⟩
  case decodeSt => exact decodesLiteral_of_decodeAssigned fun w hop => by rw [decodeAssigned, hop]; rfl
  case st =>
    rw [← baseAddress_eq_ofInt] at hreach
    have hstored := byte_writeWord s.cfg.byteOrder s.mem c (s.reg rc)
    exact ⟨_, execSt_of_reaches hreach, advance_reg s, advance_pc s, hstored, advance_pending s, advance_env s, advance_cfg s⟩

end Sys2Proof.Machine
end

section
/-! Proofs about spec/46_privileged_illegal.md: opcode 0x00 in user mode (R231, R232). -/

namespace Sys2Proof.Machine

/-! Exception entry whole -/

/-- The vector's entry is in supervisor mode (60_exceptions.md R283). -/
theorem enterException_supervisor (s : State) (v : VectorIndex) : (s.enterException v).supervisor = true := by
  rw [supervisor_eq, enterException_pc, decide_eq_true_eq]
  exact Nat.le_add_right ..

@[simp] theorem enterException_byteAt (s : State) (v : VectorIndex) (a : Nat) : (s.enterException v).byteAt a = s.byteAt a := by
  rw [State.byteAt, enterException_mem, State.byteAt]

/-- Exception entry writes XP and the PC, and nothing else (60_exceptions.md R283, R284). -/
theorem entersException_enterException (s : State) (v : VectorIndex) : EntersException s (s.enterException v) v :=
  ⟨enterException_reg s v, enterException_supervisor s v, enterException_pc s v, enterException_byteAt s v,
    enterException_pending s v, enterException_env s v, enterException_cfg s v⟩

/-- In user mode `raise IllegalInstruction` has that one effect, with VEC_ILLOP (46_privileged_illegal.md R232). -/
theorem raiseIllegal_entersException (s : State) (hs : s.supervisor = false) :
    ∃ t, s.raiseIllegal = .next t ∧ EntersException s t s.cfg.vecIllop :=
  ⟨_, raiseIllegal_user s hs, entersException_enterException s s.cfg.vecIllop⟩

/-! Opcode 0x00 -/

/-- Every machine has opcode 0x00, and its word is the privileged instruction of its lower bits (30_encoding.md R94). -/
theorem decodeWord_priv (hasMulDiv : Bool) (w : Word) (hop : opcodeOf w = 0) :
    decodeWord hasMulDiv w = .ok (.priv (bodyOf w)) := by
  have hpresent : opcodeOf w ∉ optionalOpcodes := by rw [hop]; decide
  rw [decodeWord_of_present hasMulDiv w (.inr hpresent), decodeAssigned, hop]
  rfl

theorem exec_priv (body : BitVec 26) (s : State) : exec (.priv body) s = execPriv body s := rfl

/-- Settles O10: the opcode's entry of the map is `decodeWord_priv`; in user mode the instruction is an illegal one (`execPriv_user`), whose
whole effect is exception entry (`raiseIllegal_entersException`). -/
theorem privilegedOpcodeInUserModeTraps : Obligations.PrivilegedOpcodeInUserModeTraps := by
  refine ⟨decodeWord_priv, fun s hs => ⟨raiseIllegal_entersException s hs, fun body => ?priv⟩⟩
  case priv =>
    rw [exec_priv, execPriv_user s body hs]
    exact raiseIllegal_entersException s hs

end Sys2Proof.Machine
end

section
/-! Proofs about spec/60_exceptions.md: which steps change the mode (R291), and exception entry from user mode (R283). -/

namespace Sys2Proof.Machine

/-! The mode as bit 31 of a word -/

/-- Bit 31 of a word is clear exactly when the word is below 2^31. -/
theorem pcSup_eq_zero_iff (x : Word) : pcSup x = 0 ↔ x.toNat < 2 ^ 31 := by
  rw [← BitVec.toNat_inj, toNat_pcSup]
  exact Nat.div_eq_zero_iff_lt (by decide)

/-- The mode depends on bit 31 of the PC alone (10_state.md R25). -/
theorem supervisor_congr {s t : State} (h : pcSup t.pc = pcSup s.pc) : t.supervisor = s.supervisor := by
  rw [Bool.eq_iff_iff, supervisor_iff, supervisor_iff, h]

/-- Clearing the two low bits keeps bit 31. -/
@[simp] theorem pcSup_clearLowBits (x : Word) : pcSup (clearLowBits x) = pcSup x := by
  refine BitVec.eq_of_toNat_eq ?_
  rw [toNat_pcSup, toNat_pcSup, toNat_clearLowBits]
  omega

/-- A jump from user mode stays there, whatever the register holds (44_branch_jump.md R193). -/
theorem pcSup_jumpPc_user {pc x : Word} (hpc : pcSup pc = 0) : pcSup (jumpPc pc x) = 0 := by
  rw [pcSup_jumpPc, hpc]
  exact BitVec.zero_and

/-- A jump that leaves supervisor mode for user mode goes through a word with bit 31 clear (44_branch_jump.md R193, 60_exceptions.md R291). -/
theorem lt_of_pcSup_jumpPc {pc x : Word} (hpc : pcSup pc = 1) (h : pcSup (jumpPc pc x) = 0) : x.toNat < 2 ^ 31 := by
  have hones : (1 : BitVec 1) = BitVec.allOnes 1 := rfl
  rw [pcSup_jumpPc, hpc, pcSup_clearLowBits, hones, BitVec.allOnes_and] at h
  exact (pcSup_eq_zero_iff x).1 h

/-! The mode after an instruction and after a step -/

/-- What an instruction can do to the mode: keep it, enter the exception of an illegal instruction, or jump (10_state.md R29, 60_exceptions.md R291). -/
theorem exec_mode {i : Instr} {s t : State} (h : exec i s = .next t) :
    t.supervisor = s.supervisor ∨ t = s.enterException s.cfg.vecIllop ∨
    ∃ rc ra lit, i = .jmp rc ra lit ∧ t.pc = jumpPc s.pc (s.reg ra) := by
  cases exec_shape i s t h with
  | operate rc v => exact .inl (supervisor_congr (by simp))
  | branch rc taken lit hi => exact .inl (supervisor_congr (by cases taken <;> simp))
  | jump rc ra u hi => exact .inr (.inr ⟨rc, ra, u, hi, rfl⟩)
  | store rc ra lit c hi hc => exact .inl (supervisor_congr (by simp))
  | illegal hs => exact .inr (.inl rfl)
  | parameter e hp => exact .inl (supervisor_congr (applyEffect_pcSup s e))
  | loadUnbacked rc e hi hu => exact .inl (supervisor_congr (by simp))
  | storeUnbacked e hu => exact .inl (supervisor_congr (by simp))

/-- A fetch changes nothing that the mode or an instruction's operands depend on (20_memory.md R57). -/
theorem fetch_sample_keeps {s u : State} {w : Word} (h : s.sample.1.fetch = .ok (w, u)) :
    u.pc = s.pc ∧ u.cfg = s.cfg ∧ ∀ r, u.reg r = s.reg r := by
  obtain ⟨hregs, hpc, -, hcfg⟩ := fetch_keeps h
  rw [sample_regs] at hregs
  rw [sample_pc] at hpc
  rw [sample_cfg] at hcfg
  exact ⟨hpc, hcfg, fun r => by simp only [State.reg, hregs]⟩

/-- What a step can do to the mode: keep it, enter an exception for an interrupt or an illegal instruction, or jump. -/
theorem step_mode {s t : State} (h : step s = .next t) :
    t.supervisor = s.supervisor ∨
    (∃ q v, vecIrq s.cfg q = some v ∧ EntersException s.sample.1 t v) ∨
    (∃ w u, s.sample.1.fetch = .ok (w, u) ∧ EntersException u t s.cfg.vecIllop) ∨
    ∃ w u rc ra lit, s.sample.1.fetch = .ok (w, u) ∧ decodeWord s.cfg.hasMulDiv w = .ok (.jmp rc ra lit) ∧
      t.pc = jumpPc s.pc (s.reg ra) := by
  rcases step_cases s t h with ⟨q, v, -, -, -, hv, rfl⟩ | ⟨w, u, i, hw, hi, ht⟩ | ⟨w, u, -, hw, -, -, rfl⟩ | ⟨w, u, e, hw, -, rfl⟩
  case inl => exact .inr (.inl ⟨q, v, hv, entersException_enterException _ v⟩)
  case inr.inl =>
    obtain ⟨hpc, hcfg, hreg⟩ := fetch_sample_keeps hw
    rcases exec_mode ht with hmode | rfl | ⟨rc, ra, lit, rfl, htpc⟩
    · exact .inl (hmode.trans (supervisor_congr (by rw [hpc])))
    · rw [hcfg]
      exact .inr (.inr (.inl ⟨w, u, hw, entersException_enterException u _⟩))
    · rw [hpc, hreg] at htpc
      exact .inr (.inr (.inr ⟨w, u, rc, ra, lit, hw, hi, htpc⟩))
  case inr.inr.inl => exact .inr (.inr (.inl ⟨w, u, hw, entersException_enterException u _⟩))
  case inr.inr.inr =>
    obtain ⟨hpc, -, -⟩ := fetch_sample_keeps hw
    exact .inl (supervisor_congr (by rw [applyEffect_pcSup, hpc]))

/-- Exception entry ends in supervisor mode (60_exceptions.md R283). -/
theorem EntersException.supervisor {s t : State} {v : VectorIndex} (h : EntersException s t v) : t.supervisor = true := by
  obtain ⟨-, hsup, -⟩ := h
  exact hsup

/-- Settles O5, by the ways a step can treat the mode (`step_mode`): of those that may change it, an exception ends in supervisor mode, and a
jump cannot set bit 31 of the PC, and clears it only where bit 31 of the register is clear. -/
theorem modeChangesOnlyByExceptionAndJump : Obligations.ModeChangesOnlyByExceptionAndJump := by
  intro s t h
  rcases step_mode h with hkeep | hirq | hill | ⟨w, u, rc, ra, lit, hw, hi, htpc⟩
  · constructor <;> intro hs ht <;> simp [hs, ht] at hkeep
  · refine ⟨fun _ _ => .inl hirq, fun _ ht => ?_⟩
    obtain ⟨q, v, -, henter⟩ := hirq
    simp [henter.supervisor] at ht
  · refine ⟨fun _ _ => .inr hill, fun _ ht => ?_⟩
    obtain ⟨w, u, -, henter⟩ := hill
    simp [henter.supervisor] at ht
  · constructor
    · intro hs ht
      have huser : t.supervisor = false := by
        rw [user_iff, htpc]
        exact pcSup_jumpPc_user ((user_iff s).1 hs)
      simp [huser] at ht
    · intro hs ht
      rw [user_iff, htpc] at ht
      exact ⟨w, u, rc, ra, lit, hw, hi, lt_of_pcSup_jumpPc ((supervisor_iff s).1 hs) ht⟩

/-! Exception entry from user mode -/

/-- After exception entry XP holds the updated PC (60_exceptions.md R283). -/
theorem enterException_xp (s : State) (v : VectorIndex) : (s.enterException v).reg xp = nextPc s.pc := by
  rw [enterException_reg, if_neg (by decide), if_pos rfl]

/-- After exception entry the fetch is from the vector's address: the Supervisor bit is no part of it (60_exceptions.md R283). -/
theorem fetchAddress_enterException (s : State) (v : VectorIndex) : fetchAddress (s.enterException v).pc = vectorWord v := by
  refine BitVec.eq_of_toNat_eq ?_
  rw [toNat_fetchAddress, enterException_pc, toNat_vectorWord]
  omega

/-- Settles O7: the entry whole is `entersException_enterException`; the updated PC keeps the clear bit 31 of user mode. -/
theorem exceptionEntryFromUserMode : Obligations.ExceptionEntryFromUserMode := by
  intro s v hs
  refine ⟨entersException_enterException s v, ?_, fetchAddress_enterException s v⟩
  rw [enterException_xp, ← pcSup_eq_zero_iff, pcSup_nextPc]
  exact (user_iff s).1 hs

end Sys2Proof.Machine
end

section
/-! Proofs about spec/10_state.md and spec/20_memory.md: the invariant of a run, the PC a multiple of 4 (R26) and the memory canonical, holds
after reset and over every step and run; the configuration is fixed (R36). -/

namespace Sys2Proof.Machine

/-! The invariant over the shared operations -/

/-- Sampling the environment's input touches neither the memory nor the PC. -/
theorem inv_sample {s : State} (h : s.Inv) : s.sample.1.Inv := by
  rwa [State.Inv, sample_mem, sample_pc]

theorem inv_advance {s : State} (h : s.Inv) : s.advance.Inv := by
  obtain ⟨hwf, hpc⟩ := h
  exact ⟨hwf, nextPc_aligned s.pc hpc⟩

theorem inv_setReg {s : State} (rc : Reg) (v : Word) (h : s.Inv) : (s.setReg rc v).Inv := by
  rwa [State.Inv, setReg_mem, setReg_pc]

theorem inv_setPc {s : State} {target : Word} (h : s.Inv) (htarget : target.toNat % 4 = 0) : (s.setPc target).Inv := by
  obtain ⟨hwf, -⟩ := h
  exact ⟨hwf, htarget⟩

/-- The words a device stores lie at aligned places of the address space (20_memory.md R67). -/
theorem inv_afterAccess {s : State} (e : AccessEffect) (h : s.Inv) : (s.afterAccess e).Inv := by
  obtain ⟨hwf, hpc⟩ := h
  exact ⟨wf_writeWords _ _ _ hwf, hpc⟩

theorem inv_applyEffect {s : State} (e : ArchEffect) (h : s.Inv) : (s.applyEffect e).Inv := by
  obtain ⟨hwf, -⟩ := h
  refine ⟨wf_writeWords _ _ _ hwf, ?pc⟩
  case pc =>
    rw [applyEffect_pc]
    omega

/-- A vector is a multiple of 4 (00_scope.md R9). -/
theorem inv_enterException {s : State} (v : VectorIndex) (h : s.Inv) : (s.enterException v).Inv := by
  obtain ⟨hwf, -⟩ := h
  refine ⟨by rwa [enterException_mem], ?pc⟩
  case pc =>
    rw [enterException_pc]
    omega

/-- A store reaches four bytes of the address space (20_memory.md R54). -/
theorem inv_store {s : State} {ea : Word} {c : Nat} (v : Word) (hc : dataCell s.cfg ea = .ok c) (h : s.Inv) :
    State.Inv { s with mem := Memory.writeWord s.cfg.byteOrder s.mem c v } := by
  obtain ⟨hwf, hpc⟩ := h
  obtain ⟨-, hrange, -⟩ := dataCell_ok s.cfg ea c hc
  exact ⟨wf_writeWord _ _ _ _ hrange hwf, hpc⟩

/-- A fetch reads storage or has the device's effect (20_memory.md R57). -/
theorem inv_fetch {s u : State} {w : Word} (hw : s.fetch = .ok (w, u)) (h : s.Inv) : u.Inv := by
  rcases readCell_ok (fetch_ok hw).2 with ⟨c, -, -, rfl⟩ | ⟨index, e, -, -, -, -, rfl⟩
  · exact h
  · exact inv_afterAccess e h

/-! The invariant over an instruction, a step and a run -/

/-- Every transfer goes to a multiple of 4: the branch target, the jump target and the updated PC alike (10_state.md R26). -/
theorem inv_exec {i : Instr} {s t : State} (ht : exec i s = .next t) (h : s.Inv) : t.Inv := by
  have hnext : (nextPc s.pc).toNat % 4 = 0 := nextPc_aligned s.pc h.2
  cases exec_shape i s t ht with
  | operate rc v => exact inv_advance (inv_setReg rc v h)
  | branch rc taken lit hi =>
    refine inv_setPc (inv_setReg rc _ h) ?_
    cases taken with
    | true => exact branchTarget_aligned _ lit hnext
    | false => exact hnext
  | jump rc ra u hi => exact inv_setPc (inv_setReg rc _ h) (jumpPc_aligned _ _)
  | store rc ra lit c hi hc => exact inv_advance (inv_store _ hc h)
  | illegal hs => exact inv_enterException _ h
  | parameter e hp => exact inv_applyEffect e h
  | loadUnbacked rc e hi hu => exact inv_advance (inv_setReg rc _ (inv_afterAccess e h))
  | storeUnbacked e hu => exact inv_advance (inv_afterAccess e h)

/-- Settles O3, over the ways a step can end (`step_cases`): exception entry, an instruction (`inv_exec`) and a parameter's effect each keep
the invariant, and so do the sampling and the fetch before them. -/
theorem stepKeepsTheInvariant : Obligations.StepKeepsTheInvariant := by
  intro s t h hstep
  have hsample := inv_sample h
  rcases step_cases s t hstep with ⟨q, v, -, -, -, -, rfl⟩ | ⟨w, u, i, hw, -, ht⟩ | ⟨w, u, -, hw, -, -, rfl⟩ | ⟨w, u, e, hw, -, rfl⟩
  · exact inv_enterException v hsample
  · exact inv_exec ht (inv_fetch hw hsample)
  · exact inv_enterException _ (inv_fetch hw hsample)
  · exact inv_applyEffect e (inv_fetch hw hsample)

/-- No instruction changes the configuration (10_state.md R36). -/
theorem exec_cfg {i : Instr} {s t : State} (h : exec i s = .next t) : t.cfg = s.cfg := by
  cases exec_shape i s t h with
  | operate rc v | branch rc taken lit hi | jump rc ra u hi | store rc ra lit c hi hc | illegal hs | parameter e hp
  | loadUnbacked rc e hi hu | storeUnbacked e hu => simp

/-- No step does. -/
theorem step_cfg {s t : State} (h : step s = .next t) : t.cfg = s.cfg := by
  rcases step_cases s t h with ⟨q, v, -, -, -, -, rfl⟩ | ⟨w, u, i, hw, -, ht⟩ | ⟨w, u, -, hw, -, -, rfl⟩ | ⟨w, u, e, hw, -, rfl⟩
  · rw [enterException_cfg, sample_cfg]
  all_goals obtain ⟨-, hcfg, -⟩ := fetch_sample_keeps hw
  · exact (exec_cfg ht).trans hcfg
  · rwa [enterException_cfg]
  · exact hcfg

/-- Settles O4, by induction on the length of the run: each step keeps the invariant (O3) and the configuration (`step_cfg`). -/
theorem runsKeepInvariantAndConfiguration : Obligations.RunsKeepInvariantAndConfiguration := by
  intro k
  induction k with
  | zero =>
    intro s t h hrun
    obtain rfl := (runsTo_zero s t).1 hrun
    exact ⟨h, rfl⟩
  | succ k ih =>
    intro s t h hrun
    obtain ⟨u, hstep, hrest⟩ := (runsTo_succ k s t).1 hrun
    obtain ⟨ht, hcfg⟩ := ih u t (stepKeepsTheInvariant s u h hstep) hrest
    exact ⟨ht, hcfg.trans (step_cfg hstep)⟩

/-! Reset -/

/-- The reset vector is a multiple of 4 (10_state.md R37). -/
theorem inv_powerUp {mem : Memory} (regs : Vector Word 31) (pending : List IrqSource) (env : List Boundary) (cfg : Config)
    (hwf : Memory.wf mem = true) : (State.powerUp regs mem pending env cfg).Inv :=
  ⟨hwf, by rw [powerUp_pc]; decide⟩

/-- Settles O2: State.reset is a power-up state whose memory is empty, and an empty memory is canonical. -/
theorem resetHasTheInvariant : Obligations.ResetHasTheInvariant :=
  ⟨inv_powerUp _ _ _ _ rfl, ⟨_, _, _, _, _, rfl⟩, fun regs _ pending env cfg hwf => inv_powerUp regs pending env cfg hwf⟩

end Sys2Proof.Machine
end

section
/-! Proofs about spec/10_state.md and spec/20_memory.md: the frame of a step, which registers (R24) and which bytes of memory (R52, R54) it may
change. -/

namespace Sys2Proof.Machine

/-! The registers an instruction may change -/

/-- A write changes no register but the one written (10_state.md R21). -/
theorem eq_of_setReg_ne {s : State} {rc r : Reg} {v : Word} (h : (s.setReg rc v).reg r ≠ s.reg r) : r = rc := by
  by_contra hne
  rw [reg_setReg, if_neg hne] at h
  split at h
  · subst r
    exact h (reg_31 s).symm
  · exact h rfl

/-- The other registers after the end of an operate instruction or a load (40_arithmetic.md R118). -/
theorem reg_writeAndAdvance_of_ne {s : State} {rc r : Reg} {v : Word} (h : r ≠ rc) : (s.writeAndAdvance rc v).reg r = s.reg r := by
  by_contra hne
  exact h (eq_of_setReg_ne hne)

/-- And the register written, which is not register 31. -/
theorem reg_writeAndAdvance_same {s : State} {rc : Reg} {v : Word} (h31 : rc ≠ 31) : (s.writeAndAdvance rc v).reg rc = v := by
  rw [reg_writeAndAdvance, if_neg h31, if_pos rfl]

/-- Exception entry changes no register but XP (60_exceptions.md R283). -/
theorem eq_xp_of_enterException_ne {s : State} {v : VectorIndex} {r : Reg} (h : (s.enterException v).reg r ≠ s.reg r) : r = xp :=
  eq_of_setReg_ne h

/-- The three ways in which running `i` at `s`, to `t`, may change the register `r` (the table of 10_state.md R24; logs 11 and 12). -/
def MayChange (i : Instr) (s t : State) (r : Reg) : Prop :=
  (r = xp ∧ s.supervisor = false ∧ t.supervisor = true) ∨ ParameterActs i s ∨ destination i = some r

theorem operate_mayChange {i : Instr} {s t : State} {rc r : Reg} {v : Word} (hd : destination i = some rc)
    (h : s.operate rc v = .next t) (hr : t.reg r ≠ s.reg r) : MayChange i s t r := by
  cases h
  rw [eq_of_setReg_ne hr]
  exact .inr (.inr hd)

theorem raiseIllegal_mayChange {i : Instr} {s t : State} {r : Reg} (h : s.raiseIllegal = .next t) (hr : t.reg r ≠ s.reg r)
    (hp : s.supervisor = true → s.cfg.supervisorFault = .implementation → ParameterActs i s) : MayChange i s t r := by
  rcases raiseIllegal_next s t h with ⟨hs, rfl⟩ | ⟨hs, hf, -⟩
  · exact .inl ⟨eq_xp_of_enterException_ne hr, hs, enterException_supervisor s _⟩
  · exact .inr (.inl (hp hs hf))

theorem optional_mayChange {i : Instr} {s t : State} {rc r : Reg} {v : Word} (hd : destination i = some rc)
    (hi : i.opcode ∈ optionalOpcodes) (h : s.optional (s.operate rc v) = .next t) (hr : t.reg r ≠ s.reg r) : MayChange i s t r := by
  cases hm : s.cfg.hasMulDiv with
  | true =>
    rw [optional_present s _ hm] at h
    exact operate_mayChange hd h hr
  | false =>
    rw [optional_absent s _ hm] at h
    exact raiseIllegal_mayChange h hr fun hs hf => ⟨hs, .inr ⟨hi, hm, hf⟩⟩

/-- The read of a load changes no register, even where a device makes it (45_load_store.md R210, R211; log 13). -/
theorem load_mayChange {i : Instr} {s t : State} {rc r : Reg} {ea : Word} (hd : destination i = some rc) (h : s.load rc ea = .next t)
    (hr : t.reg r ≠ s.reg r) : MayChange i s t r := by
  cases hread : s.advance.memRead ea with
  | error e =>
    rw [load_of_memRead_error rc hread] at h
    cases h
  | ok read =>
    obtain ⟨v, u⟩ := read
    rw [load_of_memRead_ok rc hread] at h
    cases h
    obtain ⟨hregs, -⟩ := readCell_keeps hread
    have hu : s.reg r = u.reg r := by simp only [State.reg, hregs]; rfl
    rw [hu] at hr
    rw [eq_of_setReg_ne hr]
    exact .inr (.inr hd)

/-- ST writes no register, even where a device takes the word (45_load_store.md R212; log 13). -/
theorem execSt_reg {s t : State} {rc ra : Reg} {lit : Literal} (h : execSt rc ra lit s = .next t) (r : Reg) : t.reg r = s.reg r := by
  unfold execSt at h
  split at h
  · cases h
    rcases memWrite_ok ‹_› with ⟨c, -, rfl⟩ | ⟨index, e, -, -, -, rfl⟩ <;> rfl
  · cases h

/-- PRIV_EXEC goes on only by the implementation's own effect, or by its own SUPERVISOR_FAULT (46_privileged_illegal.md R230, R234). -/
theorem privExec_next {s t : State} {body : BitVec 26} {iw : Word} (hs : s.supervisor = true) (h : s.privExec iw = .next t) :
    ParameterActs (.priv body) s := by
  cases hc : s.cfg.privExec with
  | refuse =>
    rw [State.privExec, hc] at h
    cases h
  | noInstruction =>
    rw [State.privExec, hc] at h
    rcases raiseIllegal_next s t h with ⟨huser, -⟩ | ⟨-, hf, -⟩
    · exact absurd (huser.symm.trans hs) Bool.false_ne_true
    · exact ⟨hs, .inl ⟨rfl, .inr ⟨hc, hf⟩⟩⟩
  | implementation => exact ⟨hs, .inl ⟨rfl, .inl hc⟩⟩

theorem execPriv_mayChange {s t : State} {body : BitVec 26} {r : Reg} (h : execPriv body s = .next t) (hr : t.reg r ≠ s.reg r) :
    MayChange (.priv body) s t r := by
  cases hs : s.supervisor with
  | false =>
    rw [execPriv_user s body hs] at h
    exact raiseIllegal_mayChange h hr fun ht => absurd (hs.symm.trans ht) Bool.false_ne_true
  | true =>
    rw [execPriv_supervisor s body hs] at h
    exact .inr (.inl (privExec_next hs h))

/-- Every instruction changes registers in one of those ways only (the table of 10_state.md R24). -/
theorem exec_mayChange {i : Instr} {s t : State} {r : Reg} (h : exec i s = .next t) (hr : t.reg r ≠ s.reg r) : MayChange i s t r := by
  cases i with
  | priv body => exact execPriv_mayChange h hr
  | ld | ldr => exact load_mayChange rfl h hr
  | st => exact absurd (execSt_reg h r) hr
  | jmp | beq | bne =>
    cases h
    rw [eq_of_setReg_ne hr]
    exact .inr (.inr rfl)
  | mul | mulc | div | divc => exact optional_mayChange rfl (by simp [Instr.opcode, optionalOpcodes]) h hr
  | add | sub | cmpeq | cmplt | cmple | and | or | xor | xnor | shl | shr | sra
  | addc | subc | cmpeqc | cmpltc | cmplec | andc | orc | xorc | xnorc | shlc | shrc | srac => exact operate_mayChange rfl h hr

/-- Settles O20, over the ways a step can end (`step_cases`): an exception writes XP, an instruction what `exec_mayChange` says, and only a
parameter's effect writes more; the sampling and the fetch before them write nothing. -/
theorem stepChangesOnlyTheDestination : Obligations.StepChangesOnlyTheDestination := by
  intro s t r hstep hr
  rcases step_cases s t hstep with ⟨q, v, -, hs, -, -, rfl⟩ | ⟨w, u, i, hw, hi, ht⟩ | ⟨w, u, -, hw, -, hs, rfl⟩ | ⟨-, -, -, -, hp, -⟩
  · rw [← sample_reg s r] at hr
    exact .inl ⟨eq_xp_of_enterException_ne hr, hs, enterException_supervisor _ v⟩
  · obtain ⟨hpc, hcfg, hreg⟩ := fetch_sample_keeps hw
    rw [← hreg r] at hr
    have hmode : u.supervisor = s.supervisor := supervisor_congr (by rw [hpc])
    rcases exec_mayChange ht hr with ⟨hxp, hs, hts⟩ | hp | hd
    · exact .inl ⟨hxp, hmode ▸ hs, hts⟩
    · rw [parameterActs_fetch hw, parameterActs_sample] at hp
      exact .inr (.inl ⟨w, u, hw, .inl ⟨i, hi, hp⟩⟩)
    · exact .inr (.inr ⟨w, u, i, hw, hi, hd⟩)
  · obtain ⟨-, -, hreg⟩ := fetch_sample_keeps hw
    rw [← hreg r] at hr
    exact .inl ⟨eq_xp_of_enterException_ne hr, hs, enterException_supervisor u _⟩
  · exact .inr (.inl hp)

/-! The bytes of memory a step may change -/

/-- An instruction changes no byte of memory but those of the word ST stores, unless a parameter acts (20_memory.md R52, R54, R67). -/
theorem exec_mem {i : Instr} {s t : State} (h : exec i s = .next t) :
    t.mem = s.mem ∨ ParameterActs i s ∨ UnbackedActs i s ∨
    ∃ rc ra lit c, i = .st rc ra lit ∧ Reaches s (s.baseAddress ra lit) c ∧
      t.mem = Memory.writeWord s.cfg.byteOrder s.mem c (s.reg rc) := by
  cases exec_shape i s t h with
  | operate rc v | branch rc taken lit hi | jump rc ra u hi | illegal hs => exact .inl (by simp)
  | parameter e hp => exact .inr (.inl hp)
  | loadUnbacked rc e hi hu | storeUnbacked e hu => exact .inr (.inr (.inl hu))
  | store rc ra lit c hi hc => exact .inr (.inr (.inr ⟨rc, ra, lit, c, hi, hc, rfl⟩))

/-- A fetch leaves the memory, unless the implementation's own MEM_MAP makes it (20_memory.md R57; log 13). -/
theorem fetch_sample_mem {s u : State} {w : Word} (h : s.sample.1.fetch = .ok (w, u)) : u.mem = s.mem ∨ StepUnbackedActs s := by
  obtain ⟨-, hread⟩ := fetch_ok h
  rw [sample_pc, sample_cfg] at hread
  rcases readCell_ok hread with ⟨c, -, -, rfl⟩ | ⟨index, e, hcell, hu, -, -, -⟩
  · exact .inl (sample_mem s)
  · rw [sample_cfg] at hu
    exact .inr (.inl ⟨hu, index, hcell⟩)

theorem sameMemory_of_mem_eq {s t : State} (h : t.mem = s.mem) : SameMemory s t := fun a => by rw [State.byteAt, h, State.byteAt]

/-- What the instruction fetched from storage does to the memory, seen from the state the step starts from. -/
theorem exec_fetched_mem {s u t : State} {w : Word} {i : Instr} (hw : s.sample.1.fetch = .ok (w, u))
    (hi : decodeWord s.cfg.hasMulDiv w = .ok i) (hmem : u.mem = s.mem) (ht : exec i u = .next t) :
    SameMemory s t ∨ StepParameterActs s ∨ StepUnbackedActs s ∨
    ∃ w u rc ra lit c, s.sample.1.fetch = .ok (w, u) ∧ decodeWord s.cfg.hasMulDiv w = .ok (.st rc ra lit) ∧
      Reaches s (s.baseAddress ra lit) c ∧ StoredWord s t c (s.reg rc) := by
  obtain ⟨hpc, hcfg, hreg⟩ := fetch_sample_keeps hw
  rcases exec_mem ht with hsame | hp | hu | ⟨rc, ra, lit, c, rfl, hreach, hstored⟩
  · exact .inl (sameMemory_of_mem_eq (hsame.trans hmem))
  · rw [parameterActs_fetch hw, parameterActs_sample] at hp
    exact .inr (.inl ⟨w, u, hw, .inl ⟨i, hi, hp⟩⟩)
  · obtain ⟨hregs, -⟩ := fetch_keeps hw
    rw [unbackedActs_congr (hregs.trans (sample_regs s)) hpc hcfg] at hu
    exact .inr (.inr (.inl (.inr ⟨w, u, i, hw, hi, hu⟩)))
  · rw [Reaches, State.baseAddress, hcfg, hreg] at hreach
    rw [hcfg, hmem, hreg] at hstored
    refine .inr (.inr (.inr ⟨w, u, rc, ra, lit, c, hw, hi, hreach, fun a => ?_⟩))
    rw [State.byteAt, hstored]
    exact byte_writeWord s.cfg.byteOrder s.mem c (s.reg rc) a

/-- Settles O43, over the ways a step can end (`step_cases`): exception entry leaves the memory, an instruction does what `exec_fetched_mem`
says, and a fetch changes memory only where the implementation's own MEM_MAP makes it. -/
theorem stepChangesMemoryOnlyByStore : Obligations.StepChangesMemoryOnlyByStore := by
  intro s t hstep
  rcases step_cases s t hstep with ⟨q, v, -, -, -, -, rfl⟩ | ⟨w, u, i, hw, hi, ht⟩ | ⟨w, u, -, hw, -, -, rfl⟩ | ⟨w, u, e, hw, hp, rfl⟩
  · exact .inl (sameMemory_of_mem_eq (by rw [enterException_mem, sample_mem]))
  · rcases fetch_sample_mem hw with hmem | hu
    · exact exec_fetched_mem hw hi hmem ht
    · exact .inr (.inr (.inl hu))
  · rcases fetch_sample_mem hw with hmem | hu
    · exact .inl (sameMemory_of_mem_eq (by rw [enterException_mem, hmem]))
    · exact .inr (.inr (.inl hu))
  · exact .inr (.inl hp)

end Sys2Proof.Machine
end

section
/-! Proofs about spec/30_encoding.md: decoding and encoding are each other's inverse (R80 to R95), the opcode alone selects (R89), and the idle
fields have no effect (R90 to R92). -/

namespace Sys2Proof.Machine

/-! Decoding an encoded instruction -/

/-- Bits 31:26 of the word of any instruction are its opcode (30_encoding.md R87). -/
theorem opcodeOf_encode (i : Instr) : opcodeOf (encode i) = i.opcode := by
  cases i with
  | priv body => exact (fields_packBody _ _).1
  | ld | st | jmp | beq | bne | ldr
  | addc | subc | mulc | divc | cmpeqc | cmpltc | cmplec | andc | orc | xorc | xnorc | shlc | shrc | srac =>
    exact (fields_packLiteral _ _ _ _).1
  | add | sub | mul | div | cmpeq | cmplt | cmple | and | or | xor | xnor | shl | shr | sra =>
    exact (fields_packOperate _ _ _ _ _).1

theorem bodyOf_packBody (op : BitVec 6) (body : BitVec 26) : bodyOf (op ++ body) = body :=
  (fields_packBody op body).2

/-- The decoder reads a With-Literal instruction's operands back (30_encoding.md R82). -/
theorem decodeLiteral_packLiteral (mk : Reg → Reg → Literal → Instr) (op : BitVec 6) (rc ra : Reg) (lit : Literal) :
    decodeLiteral mk (packLiteral op rc ra lit) = mk rc ra lit := by
  obtain ⟨-, hrc, hra, hlit⟩ := fields_packLiteral op rc ra lit
  rw [decodeLiteral, hrc, hra, hlit]

/-- The decoder reads a Without-Literal instruction's operands back, and its idle bits (30_encoding.md R81, R90). -/
theorem decodeOperate_packOperate (mk : Reg → Reg → Reg → BitVec 11 → Instr) (op : BitVec 6) (rc ra rb : Reg) (u : BitVec 11) :
    decodeOperate mk (packOperate op rc ra rb u) = mk rc ra rb u := by
  obtain ⟨-, hrc, hra, hrb, hu⟩ := fields_packOperate op rc ra rb u
  rw [decodeOperate, hrc, hra, hrb, hu]

/-- The opcode map takes every instruction's word to that instruction (30_encoding.md R87, R89). -/
theorem decodeAssigned_encode (i : Instr) : decodeAssigned (encode i) = .ok i := by
  rw [decodeAssigned, opcodeOf_encode]
  cases i with
  | priv body => exact congrArg (fun b => Except.ok (Instr.priv b)) (bodyOf_packBody _ _)
  | ld | st | jmp | beq | bne | ldr
  | addc | subc | mulc | divc | cmpeqc | cmpltc | cmplec | andc | orc | xorc | xnorc | shlc | shrc | srac =>
    exact congrArg Except.ok (decodeLiteral_packLiteral _ _ _ _ _)
  | add | sub | mul | div | cmpeq | cmplt | cmple | and | or | xor | xnor | shl | shr | sra =>
    exact congrArg Except.ok (decodeOperate_packOperate _ _ _ _ _ _)

/-- Settles O44: where the machine has the opcode the decoder is the opcode map (`decodeAssigned_encode`), and where it lacks it the word is
illegal. -/
theorem decodeOfEncodeIsTheInstruction : Obligations.DecodeOfEncodeIsTheInstruction := by
  intro hasMulDiv i
  split
  next hlacking =>
    obtain ⟨rfl, hopt⟩ := hlacking
    rw [decodeWord_of_lacking _ (by rwa [opcodeOf_encode]), opcodeOf_encode]
  next hpresent =>
    rw [decodeWord_of_present, decodeAssigned_encode]
    rw [opcodeOf_encode]
    by_cases hm : hasMulDiv = true
    · exact .inl hm
    · exact .inr fun hopt => hpresent ⟨Bool.eq_false_of_not_eq_true hm, hopt⟩

/-! Encoding a decoded word -/

/-- The opcode map drops no bit of a word (30_encoding.md R80 to R82, R94): its entries are the privileged one, then the With-Literal and the
Without-Literal ones in the order of `decodeAssigned`; the last is for the blank opcodes. -/
theorem encode_of_decodeAssigned {w : Word} {i : Instr} (h : decodeAssigned w = .ok i) : encode i = w := by
  unfold decodeAssigned at h
  split at h
  case h_1 hop =>
    cases h
    exact packBody_of_opcode w _ (BitVec.eq_of_toNat_eq hop)
  case h_36 => cases h
  case h_2 | h_3 | h_4 | h_5 | h_6 | h_7 | h_22 | h_23 | h_24 | h_25 | h_26 | h_27 | h_28 | h_29 | h_30 | h_31 | h_32 | h_33 | h_34 | h_35 =>
    cases h
    exact packLiteral_of_opcode w _ (BitVec.eq_of_toNat_eq ‹_›)
  case h_8 | h_9 | h_10 | h_11 | h_12 | h_13 | h_14 | h_15 | h_16 | h_17 | h_18 | h_19 | h_20 | h_21 =>
    cases h
    exact packOperate_of_opcode w _ (BitVec.eq_of_toNat_eq ‹_›)

/-- Settles O45: a word decodes only by the opcode map, each entry of which keeps all the fields (`encode_of_decodeAssigned`). -/
theorem encodeOfDecodeIsTheWord : Obligations.EncodeOfDecodeIsTheWord := by
  intro hasMulDiv w i h
  obtain ⟨hmap, -⟩ := decodeWord_ok h
  exact encode_of_decodeAssigned hmap

/-! The opcode selects -/

/-- A word decodes to an instruction of its own opcode (30_encoding.md R89). -/
theorem opcode_of_decodeAssigned {w : Word} {i : Instr} (h : decodeAssigned w = .ok i) : i.opcode = opcodeOf w := by
  rw [← opcodeOf_encode, encode_of_decodeAssigned h]

/-- No instruction has a blank opcode (30_encoding.md R93). -/
theorem opcode_not_blank (i : Instr) : i.opcode ∉ blankOpcodes := by
  cases i <;> simp [Instr.opcode, blankOpcodes]

/-- A word that is no instruction is illegal by the name of its opcode (30_encoding.md R93). -/
theorem decodeAssigned_illegal {w : Word} {e : DecodeError} (h : decodeAssigned w = .error e) : e = .illegalOpcode (opcodeOf w) := by
  unfold decodeAssigned at h
  split at h <;> cases h
  rfl

/-- A word of a blank opcode is illegal (30_encoding.md R93). -/
theorem decodeAssigned_of_blank {w : Word} (h : opcodeOf w ∈ blankOpcodes) : decodeAssigned w = .error (.illegalOpcode (opcodeOf w)) := by
  cases hd : decodeAssigned w with
  | ok i =>
    rw [← opcode_of_decodeAssigned hd] at h
    exact absurd h (opcode_not_blank i)
  | error e => rw [decodeAssigned_illegal hd]

/-- A word of an unassigned opcode of the machine is illegal on it: a blank one, or an optional one it lacks (30_encoding.md R93, R95). -/
theorem decodeWord_of_unassigned {hasMulDiv : Bool} {w : Word} (h : opcodeOf w ∈ unassignedOpcodes hasMulDiv) :
    decodeWord hasMulDiv w = .error (.illegalOpcode (opcodeOf w)) := by
  by_cases hpresent : hasMulDiv = true ∨ opcodeOf w ∉ optionalOpcodes
  · rw [decodeWord_of_present hasMulDiv w hpresent]
    refine decodeAssigned_of_blank ?_
    cases hasMulDiv with
    | true => exact h
    | false => exact (List.mem_append.1 h).resolve_right (hpresent.resolve_left Bool.false_ne_true)
  · obtain ⟨hlacks, hopt⟩ := not_or.1 hpresent
    rw [Bool.eq_false_of_not_eq_true hlacks]
    exact decodeWord_of_lacking w (not_not.1 hopt)

/-- Settles O46: a word that decodes does so to an instruction of its opcode (`opcode_of_decodeAssigned`), one that does not has an unassigned
opcode (`decodeWord_error`), and an unassigned opcode makes it illegal (`decodeWord_of_unassigned`). -/
theorem opcodeAloneSelects : Obligations.OpcodeAloneSelects := by
  refine fun hasMulDiv w => ⟨fun hassigned => ?instruction, decodeWord_of_unassigned⟩
  case instruction =>
    cases h : decodeWord hasMulDiv w with
    | error e => exact absurd (decodeWord_error hasMulDiv w e h) hassigned
    | ok i =>
      obtain ⟨hmap, -⟩ := decodeWord_ok h
      exact ⟨i, rfl, opcode_of_decodeAssigned hmap⟩

/-! Idle fields and sample words -/

/-- Settles O47: the arms of `exec` leave the idle fields out of the meanings. -/
theorem idleFieldsHaveNoEffect : Obligations.IdleFieldsHaveNoEffect :=
  fun _ _ _ _ _ _ _ _ _ => ⟨rfl, rfl, rfl, rfl, rfl, rfl, rfl, rfl, rfl, rfl, rfl, rfl, rfl, rfl, rfl, rfl⟩

/-- Settles O48: the decoder evaluated at each word. -/
theorem sampleWordsDecode : Obligations.SampleWordsDecode :=
  ⟨rfl, rfl, rfl, rfl, rfl, rfl, rfl, rfl, rfl⟩

end Sys2Proof.Machine
end

section
/-! Proofs about spec/20_memory.md: what an access that reaches no storage does (R53, R54, R56; 00_scope.md R13), and with it the loads and the
store (spec/45_load_store.md R210 to R212). -/

namespace Sys2Proof.Machine

theorem readCell_noStorage_ok {s : State} {n : NoStorage} {e : AccessEffect} (h : s.accessNoStorage .read n = .ok e) :
    s.readCell (.error n) = .ok (e.value, s.afterAccess e) := by
  rw [State.readCell, h]

theorem readCell_noStorage_error {s : State} {n : NoStorage} {r : Refusal} (h : s.accessNoStorage .read n = .error r) :
    s.readCell (.error n) = .error r := by
  rw [State.readCell, h]

/-- A read that reaches no storage is what the device there gives (20_memory.md R53; log 13). -/
theorem memRead_of_noStorage_ok {s : State} {ea : Word} {n : NoStorage} {e : AccessEffect} (hcell : dataCell s.cfg ea = .error n)
    (h : s.accessNoStorage .read n = .ok e) : s.memRead ea = .ok (e.value, s.afterAccess e) := by
  rw [State.memRead, hcell, readCell_noStorage_ok h]

theorem memRead_of_noStorage_error {s : State} {ea : Word} {n : NoStorage} {r : Refusal} (hcell : dataCell s.cfg ea = .error n)
    (h : s.accessNoStorage .read n = .error r) : s.memRead ea = .error r := by
  rw [State.memRead, hcell, readCell_noStorage_error h]

/-- A write that reaches no storage is what the device there makes of it (20_memory.md R54; log 13). -/
theorem memWrite_of_noStorage_ok {s : State} {ea v : Word} {n : NoStorage} {e : AccessEffect} (hcell : dataCell s.cfg ea = .error n)
    (h : s.accessNoStorage (.write v) n = .ok e) : s.memWrite ea v = .ok (s.afterAccess e) := by
  rw [State.memWrite, hcell]
  dsimp only
  rw [h]

theorem memWrite_of_noStorage_error {s : State} {ea v : Word} {n : NoStorage} {r : Refusal} (hcell : dataCell s.cfg ea = .error n)
    (h : s.accessNoStorage (.write v) n = .error r) : s.memWrite ea v = .error r := by
  rw [State.memWrite, hcell]
  dsimp only
  rw [h]

@[simp] theorem withMem_pending (s : State) (m : Memory) : ({ s with mem := m } : State).pending = s.pending := rfl
@[simp] theorem withMem_env (s : State) (m : Memory) : ({ s with mem := m } : State).env = s.env := rfl

/-- ST whose write is made ends in the state after it (45_load_store.md R212). -/
theorem execSt_of_memWrite_ok {s t : State} {rc ra : Reg} {lit : Literal}
    (h : s.advance.memWrite (s.baseAddress ra lit) (s.reg rc) = .ok t) : execSt rc ra lit s = .next t := by
  rw [execSt, h]

/-- ST whose write has no meaning has none. -/
theorem execSt_of_memWrite_error {s : State} {rc ra : Reg} {lit : Literal} {r : Refusal}
    (h : s.advance.memWrite (s.baseAddress ra lit) (s.reg rc) = .error r) : execSt rc ra lit s = .refused r := by
  rw [execSt, h]

end Sys2Proof.Machine
end

section
/-! Proofs about spec/20_memory.md: the byte order of a word, and that the instruction set cannot observe it (R55). -/

namespace Sys2Proof.Machine

/-! The bytes of a word as numbers -/

theorem toNat_byteOfWord_little (w : Word) (k : Nat) : (byteOfWord .little w k).toNat = w.toNat / 2 ^ (8 * k) % 2 ^ 8 := by
  rw [byteOfWord, BitVec.extractLsb'_toNat, Nat.shiftRight_eq_div_pow]

theorem toNat_byteOfWord_big (w : Word) (k : Nat) : (byteOfWord .big w k).toNat = w.toNat / 2 ^ (8 * (3 - k)) % 2 ^ 8 := by
  rw [byteOfWord, BitVec.extractLsb'_toNat, Nat.shiftRight_eq_div_pow]

/-- Settles O40: each byte is eight bits of the word, and put together they are the word (`wordOfBytes_byteOfWord`). -/
theorem byteOrderOfAWord : Obligations.ByteOrderOfAWord :=
  fun w => ⟨fun k _ => toNat_byteOfWord_little w k, fun k _ => toNat_byteOfWord_big w k,
    fun order => ⟨_, _, _, _, rfl, wordOfBytes_byteOfWord order w⟩⟩

/-! Two memories with the same aligned words -/

/-- Every aligned word reads in `n`, big-endian, as in `m`, little-endian: what `SameWords` says of the memories. -/
def SameWordsIn (m n : Memory) : Prop :=
  ∀ c, c % 4 = 0 → c < 2 ^ 32 → Memory.readWord .big n c = Memory.readWord .little m c

/-- One word stored at one aligned place: aligned words are the same or apart (20_memory.md R51). -/
theorem sameWordsIn_writeWord {m n : Memory} {c : Nat} (v : Word) (hc : c % 4 = 0) (h : SameWordsIn m n) :
    SameWordsIn (Memory.writeWord .little m c v) (Memory.writeWord .big n c v) := by
  intro d hd hlt
  by_cases hdc : d = c
  · rw [hdc, readWord_writeWord_same, readWord_writeWord_same]
  · have hapart : d + 4 ≤ c ∨ c + 4 ≤ d := by omega
    rw [readWord_writeWord_other _ _ _ _ _ hapart, readWord_writeWord_other _ _ _ _ _ hapart, h d hd hlt]

theorem sameWordsIn_writeWords (stores : List (BitVec 30 × Word)) {m n : Memory} (h : SameWordsIn m n) :
    SameWordsIn (Memory.writeWords .little m stores) (Memory.writeWords .big n stores) := by
  induction stores generalizing m n with
  | nil => exact h
  | cons store rest ih => exact ih (sameWordsIn_writeWord store.2 (Nat.mul_mod_right 4 _) h)

/-! What two related machines have in common -/

section
variable {s t : State}

theorem SameWords.reg (h : SameWords s t) (r : Reg) : t.reg r = s.reg r := by
  obtain ⟨-, -, hregs, -⟩ := h
  simp only [State.reg, hregs]

theorem SameWords.pc (h : SameWords s t) : t.pc = s.pc := by
  obtain ⟨-, -, -, hpc, -⟩ := h
  exact hpc

theorem SameWords.supervisor (h : SameWords s t) : t.supervisor = s.supervisor :=
  supervisor_congr (by rw [h.pc])

theorem SameWords.cfg (h : SameWords s t) : t.cfg = { s.cfg with byteOrder := .big } := by
  obtain ⟨-, hcfg, -⟩ := h
  exact hcfg

/-- The memory map does not depend on the byte order (00_scope.md R13). -/
theorem SameWords.backedCell (h : SameWords s t) (a : Word) : backedCell t.cfg a = Machine.backedCell s.cfg a := by
  rw [h.cfg]
  rfl

/-- Nor does the policy for misaligned addresses (20_memory.md R56). -/
theorem SameWords.dataCell (h : SameWords s t) (ea : Word) : dataCell t.cfg ea = Machine.dataCell s.cfg ea := by
  rw [h.cfg]
  rfl

/-- The parameters see the memory by its aligned words, so they see two related machines alike (logs 11, 12 and 13). -/
theorem SameWords.view (h : SameWords s t) : t.view = s.view := by
  obtain ⟨hlittle, hcfg, hregs, hpc, hpending, -, hwords⟩ := h
  have hread : ∀ i : BitVec 30, Memory.readWord .big t.mem (4 * i.toNat) = Memory.readWord .little s.mem (4 * i.toNat) := by
    intro i
    have hi := i.isLt
    exact hwords _ (Nat.mul_mod_right 4 _) (by omega)
  simp only [State.view, hcfg, hlittle, hpc, hpending, hread]
  congr 1
  funext r
  simp only [State.reg, hregs]

/-! The shared operations keep two machines related -/

theorem SameWords.setPc (h : SameWords s t) (target : Word) : SameWords (s.setPc target) (t.setPc target) := by
  obtain ⟨hlittle, hcfg, hregs, -, hpending, henv, hwords⟩ := h
  exact ⟨hlittle, hcfg, hregs, rfl, hpending, henv, hwords⟩

theorem SameWords.advance (h : SameWords s t) : SameWords s.advance t.advance := by
  rw [State.advance, State.advance, h.pc]
  exact h.setPc _

theorem SameWords.setReg (h : SameWords s t) (r : Reg) (v : Word) : SameWords (s.setReg r v) (t.setReg r v) := by
  obtain ⟨hlittle, hcfg, hregs, hpc, hpending, henv, hwords⟩ := h
  unfold State.setReg
  split
  · exact ⟨hlittle, hcfg, by simp only [hregs], hpc, hpending, henv, hwords⟩
  · exact ⟨hlittle, hcfg, hregs, hpc, hpending, henv, hwords⟩

theorem SameWords.enterException (h : SameWords s t) (v : VectorIndex) : SameWords (s.enterException v) (t.enterException v) := by
  rw [State.enterException, State.enterException, h.pc]
  exact (h.setReg _ _).setPc _

theorem SameWords.sample (h : SameWords s t) : SameWords s.sample.1 t.sample.1 ∧ t.sample.2 = s.sample.2 := by
  obtain ⟨hlittle, hcfg, hregs, hpc, hpending, henv, hwords⟩ := h
  unfold State.sample
  rw [henv]
  split
  · exact ⟨⟨hlittle, hcfg, hregs, hpc, hpending, henv, hwords⟩, rfl⟩
  · exact ⟨⟨hlittle, hcfg, hregs, hpc, rfl, rfl, hwords⟩, rfl⟩

/-- A word stored by each machine in its own order at a cell both reach (20_memory.md R54). -/
theorem SameWords.store (h : SameWords s t) {c : Nat} (v : Word) (hc : c % 4 = 0) :
    SameWords { s with mem := Memory.writeWord s.cfg.byteOrder s.mem c v } { t with mem := Memory.writeWord t.cfg.byteOrder t.mem c v } := by
  obtain ⟨hlittle, hcfg, hregs, hpc, hpending, henv, hwords⟩ := h
  refine ⟨hlittle, hcfg, hregs, hpc, hpending, henv, ?words⟩
  case words =>
    rw [hlittle, hcfg]
    exact sameWordsIn_writeWord v hc hwords

theorem SameWords.afterAccess (h : SameWords s t) (e : AccessEffect) : SameWords (s.afterAccess e) (t.afterAccess e) := by
  obtain ⟨hlittle, hcfg, hregs, hpc, -, henv, hwords⟩ := h
  refine ⟨hlittle, hcfg, hregs, hpc, rfl, henv, ?words⟩
  case words =>
    rw [afterAccess_mem, afterAccess_mem, hlittle, hcfg]
    exact sameWordsIn_writeWords e.stores hwords

theorem SameWords.applyEffect (h : SameWords s t) (e : ArchEffect) : SameWords (s.applyEffect e) (t.applyEffect e) := by
  obtain ⟨hlittle, hcfg, -, hpc, -, henv, hwords⟩ := h
  refine ⟨hlittle, hcfg, rfl, ?pc, rfl, henv, ?words⟩
  case pc => rw [State.applyEffect, State.applyEffect, hpc]
  case words =>
    rw [applyEffect_mem, applyEffect_mem, hlittle, hcfg]
    exact sameWordsIn_writeWords e.stores hwords

/-! Accesses to memory -/

theorem SameWords.accessNoStorage (h : SameWords s t) (access : Access) (n : NoStorage) :
    t.accessNoStorage access n = s.accessNoStorage access n := by
  cases n with
  | misaligned => rfl
  | unbacked index => rw [State.accessNoStorage, State.accessNoStorage, h.view, h.cfg]

/-- Both reads are refused alike, or give the same word in related states (20_memory.md R53). -/
theorem SameWords.readCell (h : SameWords s t) {cell : Except NoStorage Nat} (hcell : ∀ c, cell = .ok c → c % 4 = 0 ∧ c < 2 ^ 32) :
    (∃ r, s.readCell cell = .error r ∧ t.readCell cell = .error r) ∨
    ∃ v s' t', s.readCell cell = .ok (v, s') ∧ t.readCell cell = .ok (v, t') ∧ SameWords s' t' := by
  cases cell with
  | ok c =>
    obtain ⟨hc, hlt⟩ := hcell c rfl
    obtain ⟨hlittle, hcfg, -, -, -, -, hwords⟩ := id h
    refine .inr ⟨_, s, t, readCell_storage s c, ?_, h⟩
    rw [readCell_storage, hcfg, hlittle, hwords c hc hlt]
  | error n =>
    have haccess := h.accessNoStorage .read n
    cases he : s.accessNoStorage .read n with
    | error r => exact .inl ⟨r, readCell_noStorage_error he, readCell_noStorage_error (haccess.trans he)⟩
    | ok e => exact .inr ⟨_, _, _, readCell_noStorage_ok he, readCell_noStorage_ok (haccess.trans he), h.afterAccess e⟩

theorem SameWords.memRead (h : SameWords s t) (ea : Word) :
    (∃ r, s.memRead ea = .error r ∧ t.memRead ea = .error r) ∨
    ∃ v s' t', s.memRead ea = .ok (v, s') ∧ t.memRead ea = .ok (v, t') ∧ SameWords s' t' := by
  rw [State.memRead, State.memRead, h.dataCell]
  refine h.readCell fun c hc => ?_
  obtain ⟨h4, hlt, -⟩ := dataCell_ok s.cfg ea c hc
  exact ⟨h4, by omega⟩

/-- Both writes are refused alike, or end in related states (20_memory.md R54). -/
theorem SameWords.memWrite (h : SameWords s t) (ea v : Word) :
    (∃ r, s.memWrite ea v = .error r ∧ t.memWrite ea v = .error r) ∨
    ∃ s' t', s.memWrite ea v = .ok s' ∧ t.memWrite ea v = .ok t' ∧ SameWords s' t' := by
  have hcell := h.dataCell ea
  cases hs : Machine.dataCell s.cfg ea with
  | ok c =>
    obtain ⟨h4, -, -⟩ := dataCell_ok _ _ c hs
    exact .inr ⟨_, _, memWrite_of_reaches v hs, memWrite_of_reaches v (hcell.trans hs), h.store v h4⟩
  | error n =>
    have haccess := h.accessNoStorage (.write v) n
    cases he : s.accessNoStorage (.write v) n with
    | error r => exact .inl ⟨r, memWrite_of_noStorage_error hs he, memWrite_of_noStorage_error (hcell.trans hs) (haccess.trans he)⟩
    | ok e =>
      exact .inr ⟨_, _, memWrite_of_noStorage_ok hs he, memWrite_of_noStorage_ok (hcell.trans hs) (haccess.trans he), h.afterAccess e⟩

theorem SameWords.fetch (h : SameWords s t) :
    (∃ r, s.fetch = .error r ∧ t.fetch = .error r) ∨
    ∃ w s' t', s.fetch = .ok (w, s') ∧ t.fetch = .ok (w, t') ∧ SameWords s' t' := by
  rw [State.fetch, State.fetch, h.pc, h.backedCell]
  split
  case isTrue halign =>
    refine h.readCell fun c hc => ?_
    obtain ⟨rfl, -⟩ := backedCell_ok s.cfg _ c hc
    obtain ⟨h4, hlt⟩ := cellOf_range s.cfg _ ((isAligned_iff _).1 halign)
    exact ⟨h4, by omega⟩
  case isFalse => exact .inl ⟨_, rfl, rfl⟩

/-! The meanings keep two machines related, or stop them alike -/

theorem sameOutcome_operate (h : SameWords s t) (rc : Reg) {v w : Word} (hv : w = v) :
    SameOutcome SameWords (s.operate rc v) (t.operate rc w) := by
  rw [hv]
  exact (h.setReg rc v).advance

theorem sameOutcome_transfer (h : SameWords s t) (rc : Reg) {target target' : Word} (htarget : target' = target) :
    SameOutcome SameWords (.next ((s.setReg rc (nextPc s.pc)).setPc target)) (.next ((t.setReg rc (nextPc t.pc)).setPc target')) := by
  rw [htarget, h.pc]
  exact (h.setReg rc _).setPc target

theorem sameOutcome_paramOutcome (h : SameWords s t) (outcome : ParamOutcome) (fault : Fault) (refusal : Refusal) :
    SameOutcome SameWords (s.paramOutcome outcome fault refusal) (t.paramOutcome outcome fault refusal) := by
  cases outcome with
  | fault | refuse => rfl
  | effect e => exact h.applyEffect e

theorem sameOutcome_supervisorFault (h : SameWords s t) : SameOutcome SameWords s.supervisorFault t.supervisorFault := by
  have hcfg : t.cfg.supervisorFault = s.cfg.supervisorFault := by rw [h.cfg]
  rw [State.supervisorFault, State.supervisorFault, h.view, hcfg]
  split
  · rfl
  · exact sameOutcome_paramOutcome h _ _ _

theorem sameOutcome_raiseIllegal (h : SameWords s t) : SameOutcome SameWords s.raiseIllegal t.raiseIllegal := by
  have hcfg : t.cfg.vecIllop = s.cfg.vecIllop := by rw [h.cfg]
  rw [State.raiseIllegal, State.raiseIllegal, h.supervisor, hcfg]
  split
  · exact sameOutcome_supervisorFault h
  · exact h.enterException _

theorem sameOutcome_optional (h : SameWords s t) {meaning meaning' : Result} (hm : SameOutcome SameWords meaning meaning') :
    SameOutcome SameWords (s.optional meaning) (t.optional meaning') := by
  rw [State.optional, State.optional, h.cfg]
  split
  · exact hm
  · exact sameOutcome_raiseIllegal h

theorem sameOutcome_privExec (h : SameWords s t) (iw : Word) : SameOutcome SameWords (s.privExec iw) (t.privExec iw) := by
  have hcfg : t.cfg.privExec = s.cfg.privExec := by rw [h.cfg]
  rw [State.privExec, State.privExec, h.view, hcfg]
  split
  · rfl
  · exact sameOutcome_raiseIllegal h
  · split
    · exact sameOutcome_raiseIllegal h
    · exact sameOutcome_paramOutcome h _ _ _

theorem sameOutcome_execPriv (h : SameWords s t) (body : BitVec 26) : SameOutcome SameWords (execPriv body s) (execPriv body t) := by
  rw [execPriv, execPriv, h.supervisor]
  split
  · exact sameOutcome_privExec h _
  · exact sameOutcome_raiseIllegal h

theorem sameOutcome_load (h : SameWords s t) (rc : Reg) {ea ea' : Word} (hea : ea' = ea) :
    SameOutcome SameWords (s.load rc ea) (t.load rc ea') := by
  rw [hea]
  rcases h.advance.memRead ea with ⟨r, hs, ht⟩ | ⟨v, s', t', hs, ht, hrel⟩
  · rw [load_of_memRead_error rc hs, load_of_memRead_error rc ht]
    rfl
  · rw [load_of_memRead_ok rc hs, load_of_memRead_ok rc ht]
    exact hrel.setReg rc v

theorem SameWords.baseAddress (h : SameWords s t) (ra : Reg) (lit : Literal) : t.baseAddress ra lit = s.baseAddress ra lit := by
  rw [State.baseAddress, State.baseAddress, h.reg]

theorem sameOutcome_execSt (h : SameWords s t) (rc ra : Reg) (lit : Literal) :
    SameOutcome SameWords (execSt rc ra lit s) (execSt rc ra lit t) := by
  rw [execSt, execSt, h.reg, h.baseAddress]
  rcases h.advance.memWrite (s.baseAddress ra lit) (s.reg rc) with ⟨r, hs, ht⟩ | ⟨s', t', hs, ht, hrel⟩ <;> rw [hs, ht]
  · rfl
  · exact hrel

/-- Every instruction computes on words alone, and reaches memory by aligned words. -/
theorem sameOutcome_exec (h : SameWords s t) (i : Instr) : SameOutcome SameWords (exec i s) (exec i t) := by
  cases i with
  | priv body => exact sameOutcome_execPriv h body
  | ld rc ra lit => exact sameOutcome_load h rc (h.baseAddress ra lit)
  | ldr rc ra lit => exact sameOutcome_load h rc (by rw [h.pc])
  | st rc ra lit => exact sameOutcome_execSt h rc ra lit
  | jmp rc | beq rc | bne rc => exact sameOutcome_transfer h rc (by simp only [h.reg, h.pc])
  | mul rc | mulc rc | div rc | divc rc => exact sameOutcome_optional h (sameOutcome_operate h rc (by simp only [h.reg]))
  | add rc | sub rc | cmpeq rc | cmplt rc | cmple rc | and rc | or rc | xor rc | xnor rc | shl rc | shr rc | sra rc
  | addc rc | subc rc | cmpeqc rc | cmpltc rc | cmplec rc | andc rc | orc rc | xorc rc | xnorc rc | shlc rc | shrc rc | srac rc =>
    exact sameOutcome_operate h rc (by simp only [h.reg])

theorem sameOutcome_runInstruction (h : SameWords s t) : SameOutcome SameWords (runInstruction s) (runInstruction t) := by
  have hoption : t.cfg.hasMulDiv = s.cfg.hasMulDiv := by rw [h.cfg]
  rw [runInstruction, runInstruction, hoption]
  rcases h.fetch with ⟨r, hs, ht⟩ | ⟨w, s', t', hs, ht, hrel⟩ <;> rw [hs, ht]
  · rfl
  · dsimp only
    cases decodeWord s.cfg.hasMulDiv w with
    | error e => exact sameOutcome_raiseIllegal hrel
    | ok i => exact sameOutcome_exec hrel i

/-- Which interrupt is taken depends on the mode, the pending requests and the sources of the machine (60_exceptions.md R274, R276). -/
theorem SameWords.interruptTaken (h : SameWords s t) (choice : Option IrqSource) :
    t.interruptTaken choice = s.interruptTaken choice := by
  obtain ⟨-, hcfg, -, -, hpending, -⟩ := id h
  cases choice with
  | none => rfl
  | some q =>
    rw [State.interruptTaken, State.interruptTaken, h.supervisor, hpending, hcfg]
    rfl

end

/-- Settles O41, a simulation of the step by its parts: the boundary's input and its interrupt, the fetch, the decoder and the instruction
(`sameOutcome_exec`) each keep the two machines related or stop them alike. -/
theorem byteOrderIsUnobservable : Obligations.ByteOrderIsUnobservable := by
  intro s t h
  obtain ⟨hsample, hchoice⟩ := h.sample
  rw [step, step, stepWith, stepWith, hchoice, hsample.interruptTaken]
  split
  · exact hsample.enterException _
  · exact sameOutcome_runInstruction hsample

end Sys2Proof.Machine
end

section
/-! Proofs about spec/10_state.md and spec/44_branch_jump.md: the updated PC (R27), the branch target (R190) and the jump target (R193) as numbers,
and the transfers BEQ, BNE and JMP (R191 to R193). -/

namespace Sys2Proof.Machine

/-! The targets as numbers -/

/-- Settles O18: the two fields of the updated PC, weighed. -/
theorem updatedPcKeepsTheSupervisorBit : Obligations.UpdatedPcKeepsTheSupervisorBit := by
  intro pc
  rw [nextPc, toNat_pcWord, toNat_pcSup, BitVec.toNat_add, toNat_pcLow]
  simp only [BitVec.ofNat_eq_ofNat, BitVec.toNat_ofNat]
  omega

/-- The byte offset of a literal is four times its signed value (30_encoding.md R85). -/
theorem byteOffset_eq (lit : Literal) : byteOffset lit = 4 * lit.toInt := by
  rw [byteOffset, signed_sext32]

/-- Settles O19: the two fields of the branch target, weighed. -/
theorem branchTargetKeepsTheSupervisorBit : Obligations.BranchTargetKeepsTheSupervisorBit := by
  intro pcn lit
  rw [branchTarget, toNat_pcWord, toNat_pcSup, BitVec.toNat_ofInt, toNat_pcLow, byteOffset_eq]
  push_cast
  omega

/-- One bit is the other's mask. -/
theorem toNat_and_bit (a b : BitVec 1) : (a &&& b).toNat = a.toNat * b.toNat := by
  revert a b
  decide

/-- The jump target as a number: the register's bits 30:2, and bit 31 where both the PC and the register have it (44_branch_jump.md R193). -/
theorem toNat_jumpPc (pc x : Word) :
    (jumpPc pc x).toNat = x.toNat % 2 ^ 31 / 4 * 4 + if 2 ^ 31 ≤ pc.toNat ∧ 2 ^ 31 ≤ x.toNat then 2 ^ 31 else 0 := by
  have hpc := pc.isLt
  have hx := x.isLt
  have hbit : pc.toNat / 2 ^ 31 * (x.toNat / 2 ^ 31) = if 2 ^ 31 ≤ pc.toNat ∧ 2 ^ 31 ≤ x.toNat then 1 else 0 := by
    split
    next h => rw [show pc.toNat / 2 ^ 31 = 1 by omega, show x.toNat / 2 ^ 31 = 1 by omega]
    next h =>
      rw [Nat.mul_eq_zero]
      omega
  rw [jumpPc, pcSup_clearLowBits, toNat_pcWord, toNat_and_bit, toNat_pcSup, toNat_pcSup, hbit, toNat_pcLow, toNat_clearLowBits]
  split <;> omega

/-! The transfers -/

/-- What links the updated PC and goes to a target has the whole effect of a transfer (44_branch_jump.md R191 to R193). -/
theorem transferEffect_of_exec {i : Instr} {s : State} {rc : Reg} {target : Word}
    (h : exec i s = .next ((s.setReg rc (nextPc s.pc)).setPc target)) : TransferEffect i s rc target := by
  refine ⟨_, h, fun r => ?regs, rfl, fun a => ?mem, ?pending, ?env, ?cfg⟩
  case regs => rw [setPc_reg, reg_setReg]
  case mem => rw [setPc_byteAt, setReg_byteAt]
  case pending => rw [setPc_pending, setReg_pending]
  case env => rw [setPc_env, setReg_env]
  case cfg => rw [setPc_cfg, setReg_cfg]

theorem execBeq_eq (s : State) (rc ra : Reg) (lit : Literal) : execBeq rc ra lit s =
    .next ((s.setReg rc (nextPc s.pc)).setPc (if s.reg ra = 0 then branchTarget (nextPc s.pc) lit else nextPc s.pc)) := by
  simp only [execBeq, State.branch, beq_iff_eq]

theorem execBne_eq (s : State) (rc ra : Reg) (lit : Literal) : execBne rc ra lit s =
    .next ((s.setReg rc (nextPc s.pc)).setPc (if s.reg ra ≠ 0 then branchTarget (nextPc s.pc) lit else nextPc s.pc)) := by
  simp only [execBne, State.branch, bne_iff_ne]

/-- Settles O30: the encodings are entries of the opcode map; each branch links the updated PC and goes to the target where its test of the old
Ra holds. -/
theorem branchesTestAndLink : Obligations.BranchesTestAndLink := by
  refine ⟨⟨?decodeBeq, ?decodeBne⟩, fun ra rc lit => ⟨rfl, rfl⟩, fun s rc ra lit => ⟨?beq, ?bne⟩⟩
  case decodeBeq | decodeBne => exact decodesLiteral_of_decodeAssigned fun w hop => by rw [decodeAssigned, hop]; rfl
  case beq => exact transferEffect_of_exec (execBeq_eq s rc ra lit)
  case bne => exact transferEffect_of_exec (execBne_eq s rc ra lit)

/-- Settles O31: the encoding is an entry of the opcode map; JMP links the updated PC and goes to the jump target, a number by
`toNat_jumpPc`. -/
theorem jumpMasksAndNeverEntersSupervisorMode : Obligations.JumpMasksAndNeverEntersSupervisorMode := by
  refine ⟨?decodeJmp, fun s rc ra u => ⟨jumpPc s.pc (s.reg ra), transferEffect_of_exec rfl, toNat_jumpPc _ _⟩⟩
  case decodeJmp => exact decodesLiteral_of_decodeAssigned fun w hop => by rw [decodeAssigned, hop]; rfl

end Sys2Proof.Machine
end

section
/-! Proofs about spec/40_arithmetic.md, spec/42_compare.md and spec/43_shift.md: MUL, DIV (R114 to R117), the signed compares (R152 to R155), the
logical shifts (R170 to R173) and their literal forms. -/

namespace Sys2Proof.Machine

/-! The optional instructions -/

/-- Where the machine lacks an optional instruction it raises IllegalInstruction, which in user mode is exception entry (00_scope.md R8,
46_privileged_illegal.md R232; log 26). -/
theorem raisesIllegal_of_absent {i : Instr} {s : State} {meaning : Result} (h : exec i s = s.optional meaning)
    (hm : s.cfg.hasMulDiv = false) : RaisesIllegal i s := by
  have hraise : exec i s = s.raiseIllegal := h.trans (optional_absent s meaning hm)
  refine ⟨hraise, fun hs => ?_⟩
  rw [hraise]
  exact raiseIllegal_entersException s hs

/-- Where the machine has it, it ends as the operate instructions do. -/
theorem operateEffect_of_present {i : Instr} {s : State} {rc : Reg} {v w : Word} (h : exec i s = s.optional (s.operate rc v))
    (hm : s.cfg.hasMulDiv = true) (hv : v = w) : OperateEffect i s rc w :=
  operateEffect_of_exec (h.trans ((optional_present s _ hm).trans (congrArg (s.operate rc) hv)))

/-- The four optional opcodes are illegal on a machine without them (30_encoding.md R95). -/
theorem decodeWord_of_optional {w : Word} {op : BitVec 6} (hop : opcodeOf w = op) (hopt : op ∈ optionalOpcodes) :
    decodeWord false w = .error (.illegalOpcode (opcodeOf w)) :=
  decodeWord_of_lacking w (hop ▸ hopt)

theorem productWord_eq_ofNat (a b : Word) : productWord a b = BitVec.ofNat 32 (a.toNat * b.toNat) := by
  refine BitVec.eq_of_toNat_eq ?_
  rw [productWord, BitVec.toNat_mul, BitVec.toNat_ofNat]

/-- The literal matters by its signed value modulo 2^32 (30_encoding.md R84). -/
theorem productWord_sext32 (a : Word) (lit : Literal) : productWord a (sext32 lit) = BitVec.ofInt 32 (a.toNat * lit.toInt) := by
  rw [BitVec.ofInt_mul, ofInt_toNat]
  rfl

/-- Settles O22: the encodings are entries of the opcode map; where present, each instruction ends as the operate instructions do, in the product
modulo 2^32. -/
theorem multiplyKeepsTheLowWord : Obligations.MultiplyKeepsTheLowWord := by
  refine ⟨⟨?decodeMul, ?decodeMulc⟩, ?lacking, fun s rc ra rb u lit => ⟨fun hm => ⟨?mul, ?mulc⟩, fun hm => ⟨?noMul, ?noMulc⟩⟩⟩
  case decodeMul => exact decodesOperate_of_decodeAssigned fun w hop => by rw [decodeAssigned, hop]; rfl
  case decodeMulc => exact decodesLiteral_of_decodeAssigned fun w hop => by rw [decodeAssigned, hop]; rfl
  case lacking => rintro w (hop | hop) <;> exact decodeWord_of_optional hop (by decide)
  case mul => exact operateEffect_of_present rfl hm (productWord_eq_ofNat _ _)
  case mulc => exact operateEffect_of_present rfl hm (productWord_sext32 _ _)
  case noMul | noMulc => exact raisesIllegal_of_absent rfl hm

/-- The quotient rounded toward zero by sign and magnitude: where the magnitude of the dividend is the smaller it is zero
(the table of 40_arithmetic.md R119, D4). -/
theorem tdiv_eq_sign_mul_natAbs (a b : Int) : a.tdiv b = a.sign * b.sign * (a.natAbs / b.natAbs : Nat) := by
  have hnatAbs : (a.tdiv b).natAbs = a.natAbs / b.natAbs := Int.natAbs_tdiv a b
  rw [← Int.sign_mul_natAbs (a.tdiv b), Int.sign_tdiv, hnatAbs]
  split
  next hlt => rw [Nat.div_eq_of_lt hlt, Nat.cast_zero, mul_zero, mul_zero]
  next => rfl

/-- The quotient of two words by the signed value of the divisor. -/
theorem quotientWord_eq {a b : Word} {n : Int} (hb : signed b = n) : quotientWord a b =
    if n = 0 then Config.divByZero a else BitVec.ofInt 32 (a.toInt.sign * n.sign * (a.toInt.natAbs / n.natAbs : Nat)) := by
  rw [quotientWord, hb, tdiv_eq_sign_mul_natAbs, signed]

/-- Settles O23: as for MUL, with the quotient by sign and magnitude. -/
theorem divideTruncatesTowardZero : Obligations.DivideTruncatesTowardZero := by
  refine ⟨⟨?decodeDiv, ?decodeDivc⟩, ?lacking, fun s rc ra rb u lit => ⟨fun hm => ⟨?div, ?divc⟩, fun hm => ⟨?noDiv, ?noDivc⟩⟩⟩
  case decodeDiv => exact decodesOperate_of_decodeAssigned fun w hop => by rw [decodeAssigned, hop]; rfl
  case decodeDivc => exact decodesLiteral_of_decodeAssigned fun w hop => by rw [decodeAssigned, hop]; rfl
  case lacking => rintro w (hop | hop) <;> exact decodeWord_of_optional hop (by decide)
  case div => exact operateEffect_of_present rfl hm (quotientWord_eq rfl)
  case divc => exact operateEffect_of_present rfl hm (quotientWord_eq (signed_sext32 lit))
  case noDiv | noDivc => exact raisesIllegal_of_absent rfl hm

/-! The signed compares -/

theorem compareLt_eq {a b : Word} {n : Int} (hb : signed b = n) : compareLt a b = if a.toInt < n then 1 else 0 := by
  rw [compareLt, truthWord_decide, hb, signed]

theorem compareLe_eq {a b : Word} {n : Int} (hb : signed b = n) : compareLe a b = if a.toInt ≤ n then 1 else 0 := by
  rw [compareLe, truthWord_decide, hb, signed]

/-- Settles O27: each instruction ends as the operate instructions do, in the word that says how the signed values of its operands compare, of
which a literal one is extended (`signed_sext32`). -/
theorem orderedComparesAreSigned : Obligations.OrderedComparesAreSigned := by
  refine ⟨⟨?decodeCmplt, ?decodeCmpltc, ?decodeCmple, ?decodeCmplec⟩, fun s rc ra rb u lit => ⟨?cmplt, ?cmpltc, ?cmple, ?cmplec⟩⟩
  case decodeCmplt | decodeCmple => exact decodesOperate_of_decodeAssigned fun w hop => by rw [decodeAssigned, hop]; rfl
  case decodeCmpltc | decodeCmplec => exact decodesLiteral_of_decodeAssigned fun w hop => by rw [decodeAssigned, hop]; rfl
  case cmplt => exact operateEffect_of_exec (congrArg (s.operate rc) (compareLt_eq rfl))
  case cmpltc => exact operateEffect_of_exec (congrArg (s.operate rc) (compareLt_eq (signed_sext32 lit)))
  case cmple => exact operateEffect_of_exec (congrArg (s.operate rc) (compareLe_eq rfl))
  case cmplec => exact operateEffect_of_exec (congrArg (s.operate rc) (compareLe_eq (signed_sext32 lit)))

/-! The logical shifts -/

theorem shiftLeft_eq_ofNat {a : Word} {n m : Nat} (hn : n = m) : shiftLeft a n = BitVec.ofNat 32 (a.toNat * 2 ^ m) := by
  refine BitVec.eq_of_toNat_eq ?_
  rw [shiftLeft, hn, BitVec.toNat_shiftLeft, Nat.shiftLeft_eq, BitVec.toNat_ofNat]

theorem shiftRight_eq_ofNat {a : Word} {n m : Nat} (hn : n = m) : shiftRight a n = BitVec.ofNat 32 (a.toNat / 2 ^ m) := by
  refine BitVec.eq_of_toNat_eq ?_
  have hlt : a.toNat / 2 ^ m < 2 ^ 32 := lt_of_le_of_lt (Nat.div_le_self _ _) a.isLt
  rw [shiftRight, hn, BitVec.toNat_ushiftRight, Nat.shiftRight_eq_div_pow, BitVec.toNat_ofNat, Nat.mod_eq_of_lt hlt]

/-- Settles O28: each instruction ends as the operate instructions do, in the product or the unsigned quotient by two to the count's low five bits
(`countOfWord_eq`, `countOfLiteral_eq`). -/
theorem logicalShiftsMultiplyAndDivide : Obligations.LogicalShiftsMultiplyAndDivide := by
  refine ⟨⟨?decodeShl, ?decodeShlc, ?decodeShr, ?decodeShrc⟩, fun s rc ra rb u lit => ⟨?shl, ?shlc, ?shr, ?shrc⟩⟩
  case decodeShl | decodeShr => exact decodesOperate_of_decodeAssigned fun w hop => by rw [decodeAssigned, hop]; rfl
  case decodeShlc | decodeShrc => exact decodesLiteral_of_decodeAssigned fun w hop => by rw [decodeAssigned, hop]; rfl
  case shl => exact operateEffect_of_exec (congrArg (s.operate rc) (shiftLeft_eq_ofNat (countOfWord_eq _)))
  case shlc => exact operateEffect_of_exec (congrArg (s.operate rc) (shiftLeft_eq_ofNat (countOfLiteral_eq lit)))
  case shr => exact operateEffect_of_exec (congrArg (s.operate rc) (shiftRight_eq_ofNat (countOfWord_eq _)))
  case shrc => exact operateEffect_of_exec (congrArg (s.operate rc) (shiftRight_eq_ofNat (countOfLiteral_eq lit)))

end Sys2Proof.Machine
end

section
/-! Proofs about spec/60_exceptions.md: the interrupt at an instruction boundary (R274 to R282), the step without one (R296), and the return from a
handler (R287). -/

namespace Sys2Proof.Machine

/-! The step, with an interrupt and without -/

/-- An interrupt taken is exception entry, whatever word stands at the PC (60_exceptions.md R276). -/
theorem step_of_interrupt {s : State} {v : VectorIndex} (h : s.sample.1.interruptTaken s.sample.2 = some v) :
    step s = .next (s.sample.1.enterException v) := by
  rw [step, stepWith, h]

/-- With none taken the step is the instruction (60_exceptions.md R276). -/
theorem step_of_noInterrupt {s : State} (h : NoInterrupt s) : step s = runInstruction s.sample.1 := by
  rw [step, stepWith, h]

/-- In supervisor mode no interrupt is taken, whatever the environment asks for (60_exceptions.md R274). -/
theorem noInterrupt_of_supervisor {s : State} (hs : s.supervisor = true) : NoInterrupt s :=
  interruptTaken_supervisor _ _ ((sample_supervisor s).trans hs)

/-- In user mode a pending source is taken with the vector the machine has for it: there is no other mask (60_exceptions.md R274, R276). -/
theorem interruptTaken_of_pending {s : State} {q : IrqSource} (hs : s.supervisor = false) (hq : q ∈ s.pending) :
    s.interruptTaken (some q) = vecIrq s.cfg q := by
  simp [State.interruptTaken, hs, hq]

/-- A source that is not pending is not taken (60_exceptions.md R276). -/
theorem interruptTaken_of_not_pending {s : State} {q : IrqSource} (hq : q ∉ s.pending) : s.interruptTaken (some q) = none := by
  simp [State.interruptTaken, hq]

/-- A pending source of the machine that the environment lets be taken in user mode is taken (60_exceptions.md R274, R276; log 9). -/
theorem step_takes_interrupt {s : State} {q : IrqSource} {v : VectorIndex} (hs : s.supervisor = false) (hchoice : s.sample.2 = some q)
    (hq : q ∈ s.sample.1.pending) (hv : vecIrq s.cfg q = some v) : step s = .next (s.sample.1.enterException v) := by
  refine step_of_interrupt ?_
  rw [hchoice, interruptTaken_of_pending ((sample_supervisor s).trans hs) hq, sample_cfg, hv]

/-- Settles O6: in supervisor mode none is taken (`noInterrupt_of_supervisor`); in user mode the one chosen is (`step_takes_interrupt`). -/
theorem supervisorBitIsTheOnlyInterruptMask : Obligations.SupervisorBitIsTheOnlyInterruptMask :=
  ⟨fun _ hs => step_of_noInterrupt (noInterrupt_of_supervisor hs),
    fun _ _ v hs hchoice hq hv => ⟨_, step_takes_interrupt hs hchoice hq hv, entersException_enterException _ v⟩⟩

/-- Settles O9: with no source chosen, or one that is not pending, none is taken. -/
theorem deferredInterruptRunsTheInstruction : Obligations.DeferredInterruptRunsTheInstruction := by
  rintro s (hnone | ⟨q, hchoice, hq⟩)
  case inl =>
    refine step_of_noInterrupt ?_
    rw [NoInterrupt, hnone, State.interruptTaken]
  case inr =>
    refine step_of_noInterrupt ?_
    rw [NoInterrupt, hchoice]
    exact interruptTaken_of_not_pending hq

/-! The displaced instruction -/

/-- The updated PC less 4 has the address bits of the PC: the displaced instruction lies there (60_exceptions.md R282; the wrap is D11). -/
theorem fetchAddress_nextPc_sub_four (pc : Word) : fetchAddress (nextPc pc - 4) = fetchAddress pc := by
  refine BitVec.eq_of_toNat_eq ?_
  have hpc := pc.isLt
  rw [toNat_fetchAddress, toNat_fetchAddress, BitVec.toNat_sub, updatedPcKeepsTheSupervisorBit pc]
  simp only [BitVec.ofNat_eq_ofNat, BitVec.toNat_ofNat]
  omega

/-- The next input is used up at the boundary, and its requests are those pending there (00_scope.md R10; log 9). -/
theorem sample_cons {s : State} {b : Boundary} {rest : List Boundary} (h : s.env = b :: rest) :
    s.sample = ({ s with pending := b.pending, env := rest }, b.take) := by
  rw [State.sample, h]

/-- Settles O8: the interrupt is taken (`step_takes_interrupt`), its whole effect is exception entry from the state with the input sampled, and XP
points past the displaced instruction (`fetchAddress_nextPc_sub_four`). -/
theorem interruptDisplacesTheInstruction : Obligations.InterruptDisplacesTheInstruction := by
  intro s b rest q v henv htake hq hs hv
  have hsample := sample_cons henv
  have hstep : step s = .next (s.sample.1.enterException v) := step_takes_interrupt hs (by rw [hsample, htake]) (by rwa [hsample]) hv
  obtain ⟨hregs, hsup, hpc, hmem, hpending, hinputs, hcfg⟩ := entersException_enterException s.sample.1 v
  refine ⟨_, hstep, fun r => ?regs, hsup, hpc, fun a => ?mem, ?pending, ?inputs, ?cfg, ?displaced⟩
  case regs => rw [hregs, sample_pc, sample_reg]
  case mem => rw [hmem, sample_byteAt]
  case pending => rw [hpending, hsample]
  case inputs => rw [hinputs, hsample]
  case cfg => rw [hcfg, sample_cfg]
  case displaced => rw [enterException_xp, sample_pc, fetchAddress_nextPc_sub_four]

/-! The step without an interrupt -/

/-- The word fetched is decoded, and the instruction runs in the state after the fetch (60_exceptions.md R296). -/
theorem step_of_fetch {s u : State} {w : Word} {i : Instr} (h : NoInterrupt s) (hw : s.sample.1.fetch = .ok (w, u))
    (hi : decodeWord s.cfg.hasMulDiv w = .ok i) : step s = exec i u := by
  rw [step_of_noInterrupt h, runInstruction, hw]
  dsimp only
  rw [sample_cfg, hi]

/-- A word that decodes to none raises IllegalInstruction in that state (46_privileged_illegal.md R233). -/
theorem step_of_illegal {s u : State} {w : Word} {e : DecodeError} (h : NoInterrupt s) (hw : s.sample.1.fetch = .ok (w, u))
    (he : decodeWord s.cfg.hasMulDiv w = .error e) : step s = u.raiseIllegal := by
  rw [step_of_noInterrupt h, runInstruction, hw]
  dsimp only
  rw [sample_cfg, he]

/-- A fetch that is refused refuses the step. -/
theorem step_of_fetch_error {s : State} {r : Refusal} (h : NoInterrupt s) (hw : s.sample.1.fetch = .error r) : step s = .refused r := by
  rw [step_of_noInterrupt h, runInstruction, hw]

/-- The fetch address of an aligned PC is aligned (20_memory.md R57). -/
theorem fetchAddress_aligned {pc : Word} (h : pc.toNat % 4 = 0) : (fetchAddress pc).toNat % 4 = 0 := by
  rw [toNat_fetchAddress]
  omega

/-- At a boundary of storage the fetch reads the word there, and the state after it is the one with the input sampled. -/
theorem fetch_sample_storage {s : State} {c : Nat} (h4 : s.pc.toNat % 4 = 0) (hc : backedCell s.cfg (fetchAddress s.pc) = .ok c) :
    s.sample.1.fetch = .ok (Memory.readWord s.cfg.byteOrder s.mem c, s.sample.1) := by
  have hcell : backedCell s.sample.1.cfg (fetchAddress s.sample.1.pc) = .ok c := by rwa [sample_cfg, sample_pc]
  rw [fetch_storage (fetchAddress_aligned (by rwa [sample_pc])) hcell, sample_cfg, sample_mem]

theorem sample_state_eq (s : State) :
    s.sample.1 = { s with pending := ((s.env.head?).map Boundary.pending).getD s.pending, env := s.env.tail } := by
  cases henv : s.env with
  | nil =>
    rw [State.sample, henv]
    simp only [List.head?_nil, Option.map_none, Option.getD_none, List.tail_nil]
    rw [← henv]
  | cons b rest => rw [sample_cons henv, List.head?_cons, Option.map_some, Option.getD_some, List.tail_cons]

/-- Settles O49: sampling is `sample_state_eq`; the step runs the instruction of the word fetched (`step_of_fetch`), which from storage is the four
bytes there. -/
theorem stepRunsTheDecodedInstruction : Obligations.StepRunsTheDecodedInstruction :=
  ⟨sample_state_eq, fun _ _ _ _ h hw hi => step_of_fetch h hw hi, fun _ _ _ h h4 hc hi => step_of_fetch h (fetch_sample_storage h4 hc) hi⟩

/-! The return from a handler -/

/-- A jump through an aligned address below 2^31 goes there, in user mode (44_branch_jump.md R193, 60_exceptions.md R287). -/
theorem jumpPc_of_user {pc x : Word} (hx : x.toNat < 2 ^ 31) (h4 : x.toNat % 4 = 0) : jumpPc pc x = x := by
  refine BitVec.eq_of_toNat_eq ?_
  rw [toNat_jumpPc, if_neg (by omega)]
  omega

/-- From a user-mode PC below the last word the updated PC is 4 more (10_state.md R27). -/
theorem nextPc_sub_four {pc : Word} (huser : pc.toNat < 2 ^ 31) (h4 : pc.toNat % 4 = 0) (hlast : pc ≠ 0x7FFFFFFC) : nextPc pc - 4 = pc := by
  have hne : pc.toNat ≠ 0x7FFFFFFC := fun e => hlast (BitVec.eq_of_toNat_eq e)
  refine BitVec.eq_of_toNat_eq ?_
  rw [BitVec.toNat_sub, updatedPcKeepsTheSupervisorBit pc]
  simp only [BitVec.ofNat_eq_ofNat, BitVec.toNat_ofNat]
  omega

/-- `JMP(XP)` goes where XP says, linking nothing, from a state that holds there an aligned address below 2^31. -/
theorem exec_jmp_xp {s : State} {x : Word} (hxp : s.reg xp = x) (hx : x.toNat < 2 ^ 31) (h4 : x.toNat % 4 = 0) :
    exec (Asm.jmp Asm.XP 31) s = .next (s.setPc x) := by
  have hjump : exec (Asm.jmp Asm.XP 31) s = .next (s.setPc (jumpPc s.pc (s.reg xp))) := execJmp_31 s xp
  rw [hjump, hxp, jumpPc_of_user hx h4]

/-- `SUBC(XP,4,XP)` takes 4 from XP (40_arithmetic.md R113). -/
theorem exec_subc_xp (s : State) : exec (Asm.subc Asm.XP 4 Asm.XP) s = .next (s.writeAndAdvance xp (s.reg xp - 4)) := rfl

/-- The registers after exception entry and a later write of XP: those of before but for XP. -/
theorem regsAfter_xp {s t : State} (v : VectorIndex) {x : Word}
    (h : ∀ r : Reg, t.reg r = if r = 31 then 0 else if r = xp then x else (s.enterException v).reg r) : RegsAfter s t xp x := by
  intro r
  rw [h r, enterException_reg]
  split
  · rfl
  · split <;> rfl

/-- The return that resumes the displaced instruction (60_exceptions.md R287). -/
theorem return_resumes {s : State} {v : VectorIndex} (huser : s.pc.toNat < 2 ^ 31) (h4 : s.pc.toNat % 4 = 0) (hlast : s.pc ≠ 0x7FFFFFFC) :
    ∃ t, execAll [Asm.subc Asm.XP 4 Asm.XP, Asm.jmp Asm.XP 31] (s.enterException v) = .next t ∧ t.pc = s.pc ∧
      RegsAfter s t xp s.pc ∧ SameMemory s t := by
  have hsubc := exec_subc_xp (s.enterException v)
  rw [enterException_xp, nextPc_sub_four huser h4 hlast] at hsubc
  have hxp : ((s.enterException v).writeAndAdvance xp s.pc).reg xp = s.pc := reg_writeAndAdvance_same (by decide)
  have hrun := (execAll_cons _ [Asm.jmp Asm.XP 31] _ _ hsubc).trans (execAll_cons _ [] _ _ (exec_jmp_xp hxp huser h4))
  rw [execAll_nil] at hrun
  refine ⟨_, hrun, rfl, regsAfter_xp v fun r => ?regs, fun a => ?mem⟩
  case regs => rw [setPc_reg, reg_writeAndAdvance]
  case mem => rw [setPc_byteAt, writeAndAdvance_byteAt, enterException_byteAt]

/-- The return that goes past it (60_exceptions.md R287). -/
theorem return_goes_past {s : State} {v : VectorIndex} (hs : s.supervisor = false) (h4 : s.pc.toNat % 4 = 0) :
    ∃ t, exec (Asm.jmp Asm.XP 31) (s.enterException v) = .next t ∧ t.pc = nextPc s.pc ∧ t.supervisor = false ∧
      RegsAfter s t xp (nextPc s.pc) ∧ SameMemory s t := by
  have hsup : pcSup (nextPc s.pc) = 0 := by rwa [pcSup_nextPc, ← user_iff]
  have hrun := exec_jmp_xp (enterException_xp s v) ((pcSup_eq_zero_iff _).1 hsup) (nextPc_aligned s.pc h4)
  refine ⟨_, hrun, rfl, (user_iff _).2 hsup, fun r => ?regs, fun a => ?mem⟩
  case regs => rw [setPc_reg, enterException_reg]
  case mem => rw [setPc_byteAt, enterException_byteAt]

/-- Settles O16: both returns jump through XP, which holds the updated PC (`enterException_xp`) or, 4 less, the PC (`nextPc_sub_four`). -/
theorem handlerReturnsToUserMode : Obligations.HandlerReturnsToUserMode := by
  intro s v hs h4 hlast
  have huser : s.pc.toNat < 2 ^ 31 := (pcSup_eq_zero_iff s.pc).1 ((user_iff s).1 hs)
  exact ⟨return_resumes huser h4 hlast, return_goes_past hs h4⟩

end Sys2Proof.Machine
end

section
/-! Proofs about spec/46_privileged_illegal.md: opcode 0x00 in supervisor mode (R230), illegal instructions (R233, R234), and the effects of
PRIV_EXEC and SUPERVISOR_FAULT (00_scope.md R11, R12). -/

namespace Sys2Proof.Machine

/-! The effect a parameter gives -/

/-- After words stored in order, each aligned word is the last one stored there or as before (20_memory.md R54, R67). -/
theorem readWord_writeWords (order : ByteOrder) (stores : List (BitVec 30 × Word)) (m : Memory) (i : BitVec 30) :
    Memory.readWord order (Memory.writeWords order m stores) (4 * i.toNat) =
      (lastStore stores i).getD (Memory.readWord order m (4 * i.toNat)) := by
  induction stores generalizing m with
  | nil => rfl
  | cons store rest ih =>
    obtain ⟨j, v⟩ := store
    rw [Memory.writeWords, ih, readWord_writeWord_index, lastStore]
    cases lastStore rest i with
    | some w => rfl
    | none => split <;> rfl

/-- The stores of a device, in any state (20_memory.md R67; logs 11 and 13). -/
theorem deviceStores_of_writeWords {s t : State} {stores : List (BitVec 30 × Word)} {pending : List IrqSource} (hcfg : t.cfg = s.cfg)
    (hmem : t.mem = Memory.writeWords s.cfg.byteOrder s.mem stores) (hpending : t.pending = pending) (henv : t.env = s.env) :
    DeviceStores s t stores pending := by
  refine ⟨fun i => ?words, hpending, henv, hcfg⟩
  case words =>
    rw [hcfg, hmem]
    exact readWord_writeWords _ _ _ i

/-- Settles O14: the effect's fields are those of the next state, its stores are in order (`deviceStores_of_writeWords`). -/
theorem parameterEffectIsApplied : Obligations.ParameterEffectIsApplied := by
  intro s e
  refine ⟨fun r h => reg_of_lt _ r h, supervisor_congr (applyEffect_pcSup s e), ?pc, deviceStores_of_writeWords rfl rfl rfl rfl⟩
  case pc =>
    have hindex := e.pcIndex.isLt
    rw [applyEffect_pc]
    omega

/-! Illegal instructions in supervisor mode -/

theorem supervisorFault_implementation {s : State} (h : s.cfg.supervisorFault = .implementation) :
    s.supervisorFault = s.paramOutcome (Config.supervisorFaultOutcome s.view) .supervisorFault .supervisorFaultUndefined := by
  rw [State.supervisorFault, h]

/-- By default SUPERVISOR_FAULT is a fault (46_privileged_illegal.md R234, D9). -/
theorem supervisorFault_default {s : State} (h : s.cfg.supervisorFault = .fault) : s.supervisorFault = .fault .supervisorFault :=
  supervisorFault_of_ne_implementation s (by rw [h]; nofun)

/-- Settles O13: the default, and each outcome of the implementation's own, whose effect is applied whole (O14). -/
theorem supervisorFaultIsTheParameter : Obligations.SupervisorFaultIsTheParameter := by
  intro s hs
  refine ⟨raiseIllegal_supervisor s hs, supervisorFault_default, fun himpl => ?_⟩
  rw [supervisorFault_implementation himpl]
  cases Config.supervisorFaultOutcome s.view with
  | fault | refuse => rfl
  | effect e => exact ⟨_, rfl, parameterEffectIsApplied s e⟩

/-- Settles O15: the word decodes to no instruction (`decodeWord_of_unassigned`), so the step is IllegalInstruction in the state after the fetch,
which keeps the mode and the configuration. -/
theorem unassignedOpcodeIsIllegal : Obligations.UnassignedOpcodeIsIllegal := by
  intro s u w hw hop hno
  obtain ⟨hpc, hcfg, -⟩ := fetch_sample_keeps hw
  have hmode : u.supervisor = s.supervisor := supervisor_congr (by rw [hpc])
  have hstep : step s = u.raiseIllegal := step_of_illegal hno hw (decodeWord_of_unassigned hop)
  have hsupervisor (hs : s.supervisor = true) : step s = u.supervisorFault :=
    hstep.trans (raiseIllegal_supervisor u (hmode.trans hs))
  refine ⟨fun hs => ?user, hsupervisor, fun hs hf => ?byDefault⟩
  case user =>
    rw [hstep, ← hcfg]
    exact raiseIllegal_entersException u (hmode.trans hs)
  case byDefault => exact (hsupervisor hs).trans (supervisorFault_default (by rw [hcfg, hf]))

/-! Opcode 0x00 in supervisor mode -/

theorem privExec_noInstruction {s : State} (iw : Word) (h : s.cfg.privExec = .noInstruction) : s.privExec iw = s.raiseIllegal := by
  rw [State.privExec, h]

theorem privExec_refuse {s : State} (iw : Word) (h : s.cfg.privExec = .refuse) : s.privExec iw = .refused .privilegedUndefined := by
  rw [State.privExec, h]

/-- Settles O11: both configurations stop, by PRIV_EXEC or by SUPERVISOR_FAULT. -/
theorem privilegedOpcodeInSupervisorModeStops : Obligations.PrivilegedOpcodeInSupervisorModeStops := by
  intro s body hs
  rw [exec_priv, execPriv_supervisor s body hs]
  refine ⟨privExec_refuse _, fun hno hf => ?_⟩
  rw [privExec_noInstruction _ hno, raiseIllegal_supervisor s hs, supervisorFault_default hf]

/-- Settles O12: a word of opcode 0x00 decodes to the privileged instruction, whose encoding is that word (O45), so the instruction is PRIV_EXEC of
it; each outcome in turn, an effect applied whole (O14). -/
theorem privilegedInstructionIsThePrivExecOutcome : Obligations.PrivilegedInstructionIsThePrivExecOutcome := by
  intro s w i hs himpl hop hi
  have hword : encode i = w := encodeOfDecodeIsTheWord _ w i hi
  obtain rfl : Instr.priv (bodyOf w) = i := Except.ok.inj ((decodeWord_priv _ w hop).symm.trans hi)
  rw [exec_priv, execPriv_supervisor s _ hs, hword, State.privExec, himpl]
  dsimp only
  cases Config.privExecOutcome s.view w with
  | none => exact raiseIllegal_supervisor s hs
  | some outcome =>
    cases outcome with
    | fault | refuse => rfl
    | effect e => exact ⟨_, rfl, parameterEffectIsApplied s e⟩

end Sys2Proof.Machine
end

section
/-! Proofs about spec/20_memory.md and spec/45_load_store.md: which word an address reaches (R51, R56; 00_scope.md R13), LD, LDR and ST where it
reaches one and where it reaches none (R210 to R212), and reads after a store (R62, R65). -/

namespace Sys2Proof.Machine

/-! Which word an address reaches -/

/-- An aligned address is let through as it is (20_memory.md R56). -/
theorem dataCell_of_aligned (cfg : Config) {ea : Word} (h4 : ea.toNat % 4 = 0) : dataCell cfg ea = backedCell cfg ea := by
  rw [dataCell, alignData, if_pos ((isAligned_iff ea).2 h4)]

theorem isAligned_eq_false {ea : Word} (h4 : ea.toNat % 4 ≠ 0) : isAligned ea = false :=
  Bool.eq_false_of_not_eq_true fun h => h4 ((isAligned_iff ea).1 h)

theorem dataCell_of_misaligned_refuse {cfg : Config} {ea : Word} (h4 : ea.toNat % 4 ≠ 0) (hpolicy : cfg.misaligned = .refuse) :
    dataCell cfg ea = .error .misaligned := by
  simp only [dataCell, alignData, isAligned_eq_false h4, hpolicy, Bool.false_eq_true, if_false]

theorem dataCell_of_misaligned_ignore {cfg : Config} {ea : Word} (h4 : ea.toNat % 4 ≠ 0) (hpolicy : cfg.misaligned = .ignoreLowBits) :
    dataCell cfg ea = backedCell cfg (clearLowBits ea) := by
  simp only [dataCell, alignData, isAligned_eq_false h4, hpolicy, Bool.false_eq_true, if_false]

theorem clearLowBits_eq_ofNat (ea : Word) : clearLowBits ea = BitVec.ofNat 32 (ea.toNat / 4 * 4) := by
  rw [← toNat_clearLowBits, BitVec.ofNat_toNat, BitVec.setWidth_eq]

/-- Settles O36: under ignore_low_bits the address let through is the one with its low bits cleared, which is aligned. -/
theorem misalignedAccessFollowsThePolicy : Obligations.MisalignedAccessFollowsThePolicy := by
  refine fun cfg ea h4 => ⟨dataCell_of_misaligned_refuse h4, fun hpolicy => ?ignore⟩
  case ignore =>
    rw [← clearLowBits_eq_ofNat, dataCell_of_misaligned_ignore h4 hpolicy, dataCell_of_aligned cfg (clearLowBits_aligned ea)]

theorem backedCell_of_wordBacked {cfg : Config} {a : Word} (h : wordBacked cfg (cellOf cfg a) = true) :
    backedCell cfg a = .ok (cellOf cfg a) := by
  rw [backedCell, if_pos h]

theorem backedCell_of_not_wordBacked {cfg : Config} {a : Word} (h : wordBacked cfg (cellOf cfg a) = false) :
    backedCell cfg a = .error (.unbacked (BitVec.ofNat 30 (cellOf cfg a / 4))) := by
  rw [backedCell, h, if_neg Bool.false_ne_true]

/-- A word one byte of which has no storage is not backed (00_scope.md R13; log 13). -/
theorem wordBacked_eq_false {cfg : Config} {c k : Nat} (hk : k < 4) (h : cellBacked cfg (c + k) = false) : wordBacked cfg c = false := by
  have hcases : k = 0 ∨ k = 1 ∨ k = 2 ∨ k = 3 := by omega
  rcases hcases with rfl | rfl | rfl | rfl
  · rw [Nat.add_zero] at h
    simp [wordBacked, h]
  all_goals simp [wordBacked, h]

/-- The default memory map (00_scope.md R13, D15): all of the address space is storage, each byte under one address. -/
def FlatMap (cfg : Config) : Prop := cfg.backed = [⟨0, 2 ^ 32⟩] ∧ cfg.aliasBit31 = false

theorem FlatMap.cellBacked {cfg : Config} (h : FlatMap cfg) {c : Nat} (hc : c < 2 ^ 32) : cellBacked cfg c = true := by
  obtain ⟨hbacked, -⟩ := h
  simpa [Machine.cellBacked, hbacked] using hc

/-- On it every aligned word is at its own address. -/
theorem FlatMap.backedCell {cfg : Config} (h : FlatMap cfg) {a : Word} (h4 : a.toNat % 4 = 0) : backedCell cfg a = .ok a.toNat := by
  obtain ⟨-, halias⟩ := id h
  have hcell : cellOf cfg a = a.toNat := by simp [cellOf, halias]
  have ha := a.isLt
  have hword : wordBacked cfg a.toNat = true := by
    rw [wordBacked, h.cellBacked ha, h.cellBacked (by omega), h.cellBacked (by omega), h.cellBacked (by omega)]
    rfl
  rw [backedCell_of_wordBacked (by rwa [hcell]), hcell]

/-- What an access to an unbacked address does by default, and a misaligned one always: it is refused (D2, D15; logs 13 and 15). -/
theorem accessNoStorage_refuse {s : State} (access : Access) (n : NoStorage) (hu : s.cfg.unbacked = .refuse) :
    s.accessNoStorage access n = .error (defaultRefusal n) := by
  cases n with
  | misaligned => rfl
  | unbacked index =>
    rw [State.accessNoStorage, hu]
    rfl

/-- Settles O37: on the default map by `FlatMap.backedCell`, for data and for the fetch; a word with an unbacked byte is not backed
(`wordBacked_eq_false`), and refused where the map refuses such accesses. -/
theorem flatMapReachesEveryAlignedWord : Obligations.FlatMapReachesEveryAlignedWord := by
  refine ⟨fun s ea hbacked halias h4 => ?data, fun s hbacked halias h4 => ?fetch, fun s ea k h4 hk hno => ?unbacked⟩
  case data =>
    have hflat : FlatMap s.cfg := ⟨hbacked, halias⟩
    rw [Reaches, dataCell_of_aligned s.cfg h4, hflat.backedCell h4]
  case fetch =>
    have hflat : FlatMap s.cfg := ⟨hbacked, halias⟩
    have hfetch := fetchAddress_aligned h4
    rw [fetch_storage hfetch (hflat.backedCell hfetch), toNat_fetchAddress]
  case unbacked =>
    have hcell : dataCell s.cfg ea = .error (.unbacked (BitVec.ofNat 30 (cellOf s.cfg ea / 4))) := by
      rw [dataCell_of_aligned s.cfg h4, backedCell_of_not_wordBacked (wordBacked_eq_false hk hno)]
    exact ⟨hcell, fun hu => ⟨memRead_of_noStorage_error hcell (accessNoStorage_refuse _ _ hu),
      fun v => memWrite_of_noStorage_error hcell (accessNoStorage_refuse _ _ hu)⟩⟩

/-! The address of LDR -/

/-- The address of LDR as a number modulo 2^32 (45_load_store.md R211; D12). -/
theorem relativeAddress_nextPc (pc : Word) (lit : Literal) :
    relativeAddress (nextPc pc) lit = BitVec.ofInt 32 (((pc.toNat + 4) % 2 ^ 31 : Nat) + 4 * lit.toInt) := by
  have hlow : (pcLow (nextPc pc)).toNat = (pc.toNat + 4) % 2 ^ 31 := by
    rw [pcLow_nextPc, BitVec.toNat_add, toNat_pcLow]
    simp only [BitVec.ofNat_eq_ofNat, BitVec.toNat_ofNat]
    omega
  rw [relativeAddress, hlow, byteOffset_eq]

/-- From an aligned PC it is aligned. -/
theorem relativeAddress_aligned {pc : Word} (lit : Literal) (h4 : pc.toNat % 4 = 0) : (relativeAddress (nextPc pc) lit).toNat % 4 = 0 := by
  rw [relativeAddress_nextPc, BitVec.toNat_ofInt]
  push_cast
  omega

/-- Settles O33: the encoding is an entry of the opcode map; at its address (`relativeAddress_nextPc`) a load ends as the operate instructions
do, in the word read there (`load_of_reaches`). -/
theorem loadRelativeIgnoresTheSupervisorBit : Obligations.LoadRelativeIgnoresTheSupervisorBit := by
  refine ⟨?decodeLdr, fun s rc ra lit => ?ldr⟩
  case decodeLdr => exact decodesLiteral_of_decodeAssigned fun w hop => by rw [decodeAssigned, hop]; rfl
  case ldr =>
    rw [← relativeAddress_nextPc]
    exact ⟨fun c hreach => operateEffect_of_exec (load_of_reaches rc hreach), relativeAddress_aligned lit⟩

/-! Accesses that reach no word -/

section
variable {s : State} {ea : Word}

theorem load_of_noStorage_error {n : NoStorage} {r : Refusal} (rc : Reg) (hcell : dataCell s.cfg ea = .error n)
    (h : s.advance.accessNoStorage .read n = .error r) : s.load rc ea = .refused r :=
  load_of_memRead_error rc (memRead_of_noStorage_error hcell h)

theorem execSt_of_noStorage_error {rc ra : Reg} {lit : Literal} {n : NoStorage} {r : Refusal}
    (hcell : dataCell s.cfg (s.baseAddress ra lit) = .error n) (h : s.advance.accessNoStorage (.write (s.reg rc)) n = .error r) :
    execSt rc ra lit s = .refused r :=
  execSt_of_memWrite_error (memWrite_of_noStorage_error hcell h)

/-- Where the map refuses unbacked accesses, a load is refused just where its address reaches no word, by the reason (D2, D15). -/
theorem load_refused_iff (rc : Reg) (r : Refusal) (hu : s.cfg.unbacked = .refuse) :
    s.load rc ea = .refused r ↔ ∃ n, dataCell s.cfg ea = .error n ∧ r = defaultRefusal n := by
  cases hcell : dataCell s.cfg ea with
  | ok c =>
    rw [load_of_reaches rc hcell]
    exact ⟨nofun, nofun⟩
  | error n =>
    rw [load_of_noStorage_error rc hcell (accessNoStorage_refuse _ _ hu)]
    constructor
    · rintro ⟨⟩
      exact ⟨n, rfl, rfl⟩
    · rintro ⟨_, ⟨⟩, rfl⟩
      rfl

/-- And so is a store. -/
theorem execSt_refused_iff (rc ra : Reg) (lit : Literal) (r : Refusal) (hu : s.cfg.unbacked = .refuse) :
    execSt rc ra lit s = .refused r ↔ ∃ n, dataCell s.cfg (s.baseAddress ra lit) = .error n ∧ r = defaultRefusal n := by
  cases hcell : dataCell s.cfg (s.baseAddress ra lit) with
  | ok c =>
    rw [execSt_of_reaches hcell]
    exact ⟨nofun, nofun⟩
  | error n =>
    rw [execSt_of_noStorage_error hcell (accessNoStorage_refuse _ _ hu)]
    constructor
    · rintro ⟨⟩
      exact ⟨n, rfl, rfl⟩
    · rintro ⟨_, ⟨⟩, rfl⟩
      rfl

/-- A load never faults, on any memory map (20_memory.md R61). -/
theorem load_ne_fault (rc : Reg) (f : Fault) : s.load rc ea ≠ .fault f := by
  unfold State.load
  split <;> nofun

/-- Nor does a store. -/
theorem execSt_ne_fault (rc ra : Reg) (lit : Literal) (f : Fault) : execSt rc ra lit s ≠ .fault f := by
  unfold execSt
  split <;> nofun

end

theorem exec_ld (rc ra : Reg) (lit : Literal) (s : State) : exec (.ld rc ra lit) s = s.load rc (s.baseAddress ra lit) := rfl

theorem exec_ldr (rc ra : Reg) (lit : Literal) (s : State) :
    exec (.ldr rc ra lit) s = s.load rc (relativeAddress (nextPc s.pc) lit) := rfl

theorem exec_st (rc ra : Reg) (lit : Literal) (s : State) : exec (.st rc ra lit) s = execSt rc ra lit s := rfl

/-- Settles O35: a misaligned access has no meaning on any map; by default just the accesses that reach no word are refused
(`load_refused_iff`, `execSt_refused_iff`); and no arm of the three faults. -/
theorem accessThatReachesNoWordIsRefused : Obligations.AccessThatReachesNoWordIsRefused := by
  intro s rc ra lit
  rw [← baseAddress_eq_ofInt, ← relativeAddress_nextPc]
  simp only [exec_ld, exec_ldr, exec_st]
  exact ⟨fun hcell => ⟨load_of_noStorage_error rc hcell rfl, execSt_of_noStorage_error hcell rfl⟩,
    fun hcell => load_of_noStorage_error rc hcell rfl,
    fun hu => ⟨fun r => load_refused_iff rc r hu, fun r => execSt_refused_iff rc ra lit r hu, fun r => load_refused_iff rc r hu⟩,
    fun f => ⟨load_ne_fault rc f, execSt_ne_fault rc ra lit f, load_ne_fault rc f⟩⟩

/-! Accesses that a device answers -/

section
variable {s : State}

theorem accessNoStorage_none {access : Access} {index : BitVec 30} (hu : s.cfg.unbacked = .implementation)
    (h : Config.unbackedOutcome s.view access index = none) : s.accessNoStorage access (.unbacked index) = .error .unbackedAccess := by
  rw [State.accessNoStorage, hu]
  dsimp only
  rw [h]

theorem accessNoStorage_some {access : Access} {index : BitVec 30} {e : AccessEffect} (hu : s.cfg.unbacked = .implementation)
    (h : Config.unbackedOutcome s.view access index = some e) : s.accessNoStorage access (.unbacked index) = .ok e := by
  rw [State.accessNoStorage, hu]
  dsimp only
  rw [h]

/-- A load a device answers completes with the word given and the device's side effects (20_memory.md R53, R59; log 13). -/
theorem load_unbacked_some {ea : Word} {index : BitVec 30} {e : AccessEffect} (rc : Reg) (hu : s.cfg.unbacked = .implementation)
    (hcell : dataCell s.cfg ea = .error (.unbacked index)) (h : Config.unbackedOutcome s.advance.view .read index = some e) :
    ∃ t, s.load rc ea = .next t ∧ RegsAfter s t rc e.value ∧ t.pc = nextPc s.pc ∧ DeviceStores s t e.stores e.pending := by
  have hload := load_of_memRead_ok rc (memRead_of_noStorage_ok hcell (accessNoStorage_some (s := s.advance) hu h))
  refine ⟨_, hload, fun r => ?regs, ?pc, deviceStores_of_writeWords ?cfg ?mem ?pending ?env⟩
  case regs => rw [reg_setReg, afterAccess_reg, advance_reg]
  case pc => rw [setReg_pc, afterAccess_pc, advance_pc]
  case cfg => rw [setReg_cfg, afterAccess_cfg, advance_cfg]
  case mem => rw [setReg_mem, afterAccess_mem, advance_cfg, advance_mem]
  case pending => rw [setReg_pending, afterAccess_pending]
  case env => rw [setReg_env, afterAccess_env, advance_env]

theorem load_unbacked_none {ea : Word} {index : BitVec 30} (rc : Reg) (hu : s.cfg.unbacked = .implementation)
    (hcell : dataCell s.cfg ea = .error (.unbacked index)) (h : Config.unbackedOutcome s.advance.view .read index = none) :
    s.load rc ea = .refused .unbackedAccess :=
  load_of_noStorage_error rc hcell (accessNoStorage_none (s := s.advance) hu h)

/-- A store a device takes completes with the device's side effects, and writes no register (20_memory.md R54, R59; log 13). -/
theorem execSt_unbacked_some {rc ra : Reg} {lit : Literal} {index : BitVec 30} {e : AccessEffect} (hu : s.cfg.unbacked = .implementation)
    (hcell : dataCell s.cfg (s.baseAddress ra lit) = .error (.unbacked index))
    (h : Config.unbackedOutcome s.advance.view (.write (s.reg rc)) index = some e) :
    ∃ t, execSt rc ra lit s = .next t ∧ (∀ r, t.reg r = s.reg r) ∧ t.pc = nextPc s.pc ∧ DeviceStores s t e.stores e.pending :=
  ⟨_, execSt_of_memWrite_ok (memWrite_of_noStorage_ok hcell (accessNoStorage_some (s := s.advance) hu h)), afterAccess_reg s.advance e,
    afterAccess_pc s.advance e, deviceStores_of_writeWords rfl rfl rfl rfl⟩

theorem execSt_unbacked_none {rc ra : Reg} {lit : Literal} {index : BitVec 30} (hu : s.cfg.unbacked = .implementation)
    (hcell : dataCell s.cfg (s.baseAddress ra lit) = .error (.unbacked index))
    (h : Config.unbackedOutcome s.advance.view (.write (s.reg rc)) index = none) : execSt rc ra lit s = .refused .unbackedAccess :=
  execSt_of_noStorage_error hcell (accessNoStorage_none (s := s.advance) hu h)

end

/-- Settles O55: both outcomes of the device for each of the three instructions. -/
theorem unbackedAccessIsTheMemMapOutcome : Obligations.UnbackedAccessIsTheMemMapOutcome := by
  intro s rc ra lit index hu
  rw [← baseAddress_eq_ofInt, ← relativeAddress_nextPc]
  simp only [exec_ld, exec_ldr, exec_st]
  refine ⟨fun hcell => ?ld, fun hcell => ?ldr, fun hcell => ?st⟩
  case ld | ldr =>
    cases hout : Config.unbackedOutcome s.advance.view .read index with
    | none => exact load_unbacked_none rc hu hcell hout
    | some e => exact load_unbacked_some rc hu hcell hout
  case st =>
    cases hout : Config.unbackedOutcome s.advance.view (.write (s.reg rc)) index with
    | none => exact execSt_unbacked_none hu hcell hout
    | some e => exact execSt_unbacked_some hu hcell hout

/-- A fetch from no storage is the read of what stands there (20_memory.md R53, R57; log 13). -/
theorem fetch_sample_unbacked {s : State} {n : NoStorage} (h4 : s.pc.toNat % 4 = 0)
    (hcell : backedCell s.cfg (fetchAddress s.pc) = .error n) : s.sample.1.fetch = s.sample.1.readCell (.error n) := by
  rw [State.fetch, sample_pc, sample_cfg, if_pos ((isAligned_iff _).2 (fetchAddress_aligned h4)), hcell]

/-- Settles O56: the fetch is the device's read (`fetch_sample_unbacked`); refused, it refuses the step, and answered, the step is the instruction of
the word given (`step_of_fetch`). -/
theorem unbackedFetchIsTheMemMapOutcome : Obligations.UnbackedFetchIsTheMemMapOutcome := by
  intro s index hno h4 hcell
  have hfetch := fetch_sample_unbacked h4 hcell
  refine ⟨fun hu => ?refused, fun hu => ?answered⟩
  case refused =>
    rw [← sample_cfg] at hu
    exact step_of_fetch_error hno (hfetch.trans (readCell_noStorage_error (accessNoStorage_refuse _ _ hu)))
  case answered =>
    rw [← sample_cfg] at hu
    cases hout : Config.unbackedOutcome s.sample.1.view .read index with
    | none => exact step_of_fetch_error hno (hfetch.trans (readCell_noStorage_error (accessNoStorage_none hu hout)))
    | some e =>
      have hread := hfetch.trans (readCell_noStorage_ok (accessNoStorage_some hu hout))
      refine ⟨s.sample.1.afterAccess e, fun r => ?regs, ?pc, deviceStores_of_writeWords rfl rfl rfl rfl, fun i hi => step_of_fetch hno hread hi⟩
      case regs => rw [afterAccess_reg, sample_reg]
      case pc => rw [afterAccess_pc, sample_pc]

/-! Reads after a store -/

/-- A store that reaches a word ends in this state and no other (45_load_store.md R212). -/
theorem eq_of_exec_st {s t : State} {rc ra : Reg} {lit : Literal} {c : Nat} (h : exec (.st rc ra lit) s = .next t)
    (hreach : Reaches s (s.baseAddress ra lit) c) :
    t = { s.advance with mem := Memory.writeWord s.cfg.byteOrder s.mem c (s.reg rc) } := by
  rw [exec_st, execSt_of_reaches hreach] at h
  exact (Host.Outcome.next.inj h).symm

/-- Two words that data accesses reach are the same or apart (20_memory.md R51). -/
theorem reaches_same_or_apart {s t : State} {ea ea' : Word} {c d : Nat} (hc : Reaches s ea c) (hd : Reaches t ea' d) (hne : d ≠ c) :
    d + 4 ≤ c ∨ c + 4 ≤ d := by
  obtain ⟨hc4, -, -⟩ := dataCell_ok _ _ _ hc
  obtain ⟨hd4, -, -⟩ := dataCell_ok _ _ _ hd
  omega

/-- Settles O38: in the state after the store the read is of the word written (`readWord_writeWord_same`) or of one apart from it
(`readWord_writeWord_other`). -/
theorem loadReturnsTheLatestStore : Obligations.LoadReturnsTheLatestStore := by
  intro s t rc ra lit ea c d hst hc hd
  obtain rfl := eq_of_exec_st hst hc
  have hd' : Reaches s ea d := hd
  refine ⟨_, memRead_of_reaches hd, fun hsame => ?same, fun hne => ?other⟩
  case same =>
    rw [hsame]
    exact readWord_writeWord_same _ _ _ _
  case other =>
    rw [memRead_of_reaches hd']
    exact congrArg (fun v => Except.ok (v, s)) (readWord_writeWord_other _ _ _ _ _ (reaches_same_or_apart hc hd hne)).symm

/-- Settles O39: the fetch after the store is from storage (`fetch_storage`), of the word just written. -/
theorem storeIsSeenByTheNextFetch : Obligations.StoreIsSeenByTheNextFetch := by
  intro s t rc ra lit c h4 hst hreach hfetch
  obtain rfl := eq_of_exec_st hst hreach
  rw [fetch_storage (fetchAddress_aligned (nextPc_aligned s.pc h4)) hfetch]
  exact congrArg (fun v => Except.ok (v, _)) (readWord_writeWord_same _ _ _ _)

end Sys2Proof.Machine
end

section
/-! Proofs about spec/70_reset_and_hazards.md and the assembler level (spec/30_encoding.md, spec/47_macros_conventions.md): the end of a run (R322),
the literal of a branch (R100, R101), PUSH and POP (R251, R252). -/

namespace Sys2Proof.Machine

/-! The branch to itself -/

/-- `BR(.)` is `BEQ(R31,.,R31)`, on every machine (70_reset_and_hazards.md R322, 47_macros_conventions.md R245). -/
theorem decodeWord_endWord (hasMulDiv : Bool) : decodeWord hasMulDiv endWord = .ok (.beq 31 31 (-1)) := by
  cases hasMulDiv <;> rfl

/-- The target of a branch, from its own PC (44_branch_jump.md R190). -/
theorem toNat_branchTarget_nextPc (pc : Word) (lit : Literal) :
    ((branchTarget (nextPc pc) lit).toNat : Int) = pc.toNat / 2 ^ 31 * 2 ^ 31 + (pc.toNat + 4 + 4 * lit.toInt) % 2 ^ 31 := by
  have hpc := pc.isLt
  rw [branchTargetKeepsTheSupervisorBit, updatedPcKeepsTheSupervisorBit]
  push_cast
  omega

/-- The literal -1 is one word back from the updated PC: the branch itself. -/
theorem branchTarget_nextPc_neg_one (pc : Word) : branchTarget (nextPc pc) (-1) = pc := by
  have hpc := pc.isLt
  have htarget := toNat_branchTarget_nextPc pc (-1)
  rw [show (-1 : Literal).toInt = -1 from rfl] at htarget
  refine BitVec.eq_of_toNat_eq ?_
  omega

/-- It is taken, links nothing and changes nothing. -/
theorem exec_branch_to_itself (s : State) : exec (.beq 31 31 (-1)) s = .next s := by
  have hbranch : exec (.beq 31 31 (-1)) s = _ := execBeq_eq s 31 31 (-1)
  rw [hbranch, setReg_literal_31, if_pos (reg_31 s), branchTarget_nextPc_neg_one]
  rfl

/-- The end of a run (70_reset_and_hazards.md R322). -/
theorem atEnd_iff (s : State) (address : Word) :
    s.atEnd address = true ↔ fetchAddress s.pc = address ∧ ∃ u, s.sample.1.fetch = .ok (endWord, u) := by
  rw [State.atEnd, Bool.and_eq_true, beq_iff_eq]
  refine and_congr_right fun _ => ?_
  cases s.sample.1.fetch with
  | error r => exact ⟨nofun, nofun⟩
  | ok read =>
    obtain ⟨w, u⟩ := read
    constructor
    · intro hw
      rw [beq_iff_eq.1 hw]
      exact ⟨u, rfl⟩
    · rintro ⟨_, ⟨⟩⟩
      exact beq_self_eq_true endWord

theorem step_at_endWord {s u : State} (hw : s.sample.1.fetch = .ok (endWord, u)) (hno : NoInterrupt s) : step s = .next u := by
  rw [step_of_fetch hno hw (decodeWord_endWord _), exec_branch_to_itself]

/-- What a fetch of storage leaves is the state it starts from. -/
theorem eq_of_fetch_storage {s u : State} {w : Word} {c : Nat} (hw : s.fetch = .ok (w, u)) (hc : backedCell s.cfg (fetchAddress s.pc) = .ok c) :
    u = s := by
  obtain ⟨-, hread⟩ := fetch_ok hw
  rw [hc, readCell_storage] at hread
  cases hread
  rfl

/-- Settles O50: the end is `atEnd_iff`; there the step is the branch to itself (`step_at_endWord`), after a fetch that from storage changes
nothing. -/
theorem endOfRunIsABranchToItself : Obligations.EndOfRunIsABranchToItself := by
  refine fun s address => ⟨atEnd_iff s address, fun u hw hno => step_at_endWord hw hno, fun c hend hno hc => ?storage⟩
  case storage =>
    obtain ⟨-, u, hw⟩ := (atEnd_iff s address).1 hend
    have hu : u = s.sample.1 := eq_of_fetch_storage hw (by rwa [sample_cfg, sample_pc])
    rw [← hu]
    exact step_at_endWord hw hno

/-! The first arrival -/

/-- A state a run goes on from: not at the end, and with no interrupt taken where handlers are no part of the run
(70_reset_and_hazards.md R322). -/
def OnTheWay (handlers : Handlers) (address : Word) (s : State) : Prop :=
  s.atEnd address = false ∧ (handlers = .excluded → NoInterrupt s)

theorem runUntil_of_atEnd {s : State} {address : Word} (handlers : Handlers) (k : Nat) (h : s.atEnd address = true) :
    runUntil handlers address k s = .ended s := by
  cases k with
  | zero => rw [runUntil, if_pos h]
  | succ k => rw [runUntil, if_pos h]

theorem runUntil_of_onTheWay {handlers : Handlers} {address : Word} {s u : State} (k : Nat) (h : OnTheWay handlers address s)
    (hstep : step s = .next u) : runUntil handlers address (k + 1) s = runUntil handlers address k u := by
  obtain ⟨hend, hno⟩ := h
  have hgoes : ¬ (handlers == .excluded && s.takesInterrupt) = true := by
    rw [Bool.and_eq_true, beq_iff_eq]
    rintro ⟨hex, htakes⟩
    rw [(takesInterrupt_eq_false s).2 (hno hex)] at htakes
    cases htakes
  rw [runUntil, hend, if_neg Bool.false_ne_true, if_neg hgoes, hstep]

/-- A run that ends does so at once, at the end, or goes on by a step to a run that ends. -/
theorem runUntil_ended {handlers : Handlers} {address : Word} {k : Nat} {s t : State} (h : runUntil handlers address k s = .ended t) :
    (t = s ∧ s.atEnd address = true) ∨
    ∃ k' u, k = k' + 1 ∧ OnTheWay handlers address s ∧ step s = .next u ∧ runUntil handlers address k' u = .ended t := by
  cases hend : s.atEnd address with
  | true =>
    rw [runUntil_of_atEnd handlers k hend] at h
    exact .inl ⟨(RunOutcome.ended.inj h).symm, rfl⟩
  | false =>
    cases k with
    | zero =>
      rw [runUntil, hend, if_neg Bool.false_ne_true] at h
      cases h
    | succ k =>
      rw [runUntil, hend, if_neg Bool.false_ne_true] at h
      split at h
      · cases h
      · rename_i hgoes
        have hway : OnTheWay handlers address s := by
          refine ⟨hend, fun hex => (takesInterrupt_eq_false s).1 ?_⟩
          simpa [hex] using hgoes
        split at h
        · exact .inr ⟨k, _, rfl, hway, ‹_›, h⟩
        · cases h
        · cases h

/-- A property of all states a run passes, its start apart. -/
theorem forall_runsTo_succ {s u : State} {j : Nat} {P : State → Prop} (hstep : step s = .next u) :
    (∀ i < j + 1, ∀ v, RunsTo i s v → P v) ↔ P s ∧ ∀ i < j, ∀ v, RunsTo i u v → P v := by
  constructor
  · intro h
    exact ⟨h 0 (Nat.succ_pos j) s ((runsTo_zero s s).2 rfl), fun i hi v hv =>
      h (i + 1) (Nat.succ_lt_succ hi) v ((runsTo_succ i s v).2 ⟨u, hstep, hv⟩)⟩
  · rintro ⟨hs, hrest⟩ i hi v hv
    cases i with
    | zero =>
      obtain rfl := (runsTo_zero s v).1 hv
      exact hs
    | succ i =>
      obtain ⟨u', hstep', hv'⟩ := (runsTo_succ i s v).1 hv
      obtain rfl : u = u' := Host.Outcome.next.inj (hstep.symm.trans hstep')
      exact hrest i (Nat.lt_of_succ_lt_succ hi) v hv'

/-- By induction on the limit: the run that ends arrives, for the first time. -/
theorem arrival_of_runUntil {handlers : Handlers} {address : Word} {k : Nat} {s t : State}
    (h : runUntil handlers address k s = .ended t) :
    ∃ j, RunsTo j s t ∧ t.atEnd address = true ∧ ∀ i < j, ∀ u, RunsTo i s u → OnTheWay handlers address u := by
  induction k generalizing s with
  | zero =>
    rcases runUntil_ended h with ⟨rfl, hend⟩ | ⟨k', u, hk, -⟩
    · exact ⟨0, (runsTo_zero t t).2 rfl, hend, nofun⟩
    · cases hk
  | succ k ih =>
    rcases runUntil_ended h with ⟨rfl, hend⟩ | ⟨k', u, ⟨⟩, hway, hstep, hrest⟩
    · exact ⟨0, (runsTo_zero t t).2 rfl, hend, nofun⟩
    · obtain ⟨j, hrun, hend, hpassed⟩ := ih hrest
      exact ⟨j + 1, (runsTo_succ j s t).2 ⟨u, hstep, hrun⟩, hend, (forall_runsTo_succ hstep).2 ⟨hway, hpassed⟩⟩

/-- By induction on the number of steps: with that many allowed, the run ends at its first arrival. -/
theorem runUntil_of_arrival {handlers : Handlers} {address : Word} {j : Nat} {s t : State} (hrun : RunsTo j s t)
    (hend : t.atEnd address = true) (hpassed : ∀ i < j, ∀ u, RunsTo i s u → OnTheWay handlers address u) :
    runUntil handlers address j s = .ended t := by
  induction j generalizing s with
  | zero =>
    obtain rfl := (runsTo_zero s t).1 hrun
    exact runUntil_of_atEnd handlers 0 hend
  | succ j ih =>
    obtain ⟨u, hstep, hrest⟩ := (runsTo_succ j s t).1 hrun
    obtain ⟨hway, hpassed'⟩ := (forall_runsTo_succ hstep).1 hpassed
    rw [runUntil_of_onTheWay j hway hstep]
    exact ih hrest hpassed'

/-- Settles O51, both ways by induction (`arrival_of_runUntil`, `runUntil_of_arrival`). -/
theorem runUntilIsTheFirstArrival : Obligations.RunUntilIsTheFirstArrival :=
  fun _ _ _ _ => ⟨fun ⟨_, h⟩ => arrival_of_runUntil h, fun ⟨j, hrun, hend, hpassed⟩ => ⟨j, runUntil_of_arrival hrun hend hpassed⟩⟩

/-! The literal of a branch -/

/-- A number is a literal just where it has one with that signed value (30_encoding.md R84, R101). -/
theorem literal_eq_some_iff (n : Int) (lit : Literal) : Asm.literal? n = some lit ↔ -32768 ≤ n ∧ n ≤ 32767 ∧ lit.toInt = n := by
  have hlow := lit.le_toInt
  have hhigh := lit.toInt_lt
  rw [Asm.literal?]
  split
  next hrange =>
    rw [Option.some_inj]
    constructor
    · rintro rfl
      exact ⟨hrange.1, hrange.2, BitVec.toInt_ofInt_eq_self (by decide) hrange.1 (by omega)⟩
    · rintro ⟨-, -, rfl⟩
      exact BitVec.ofInt_toInt
  next hrange => exact ⟨nofun, fun ⟨h1, h2, _⟩ => absurd ⟨h1, h2⟩ hrange⟩

/-- The literal of a label (30_encoding.md R100; D22). -/
theorem branchLiteral_eq_some_iff (here label : Int) (lit : Literal) : Asm.branchLiteral? here label = some lit ↔
    (label - here) % 4 = 0 ∧ -32767 ≤ (label - here) / 4 ∧ (label - here) / 4 ≤ 32768 ∧ lit.toInt = (label - here) / 4 - 1 := by
  rw [Asm.branchLiteral?]
  split
  next h4 =>
    rw [literal_eq_some_iff]
    omega
  next h4 => exact ⟨nofun, fun ⟨h, _⟩ => absurd h h4⟩

/-- Settles O52: the literal is the offset in words less one (`branchLiteral_eq_some_iff`), and four times it from the updated PC is the label, both
targets taken as numbers (O18, O19). -/
theorem branchLiteralReachesTheLabel : Obligations.BranchLiteralReachesTheLabel := by
  refine ⟨branchLiteral_eq_some_iff, fun pc label lit hlabel hlit => ?target⟩
  case target =>
    obtain ⟨h4, -, -, hvalue⟩ := (branchLiteral_eq_some_iff _ _ _).1 hlit
    have hpc := pc.isLt
    have htarget := toNat_branchTarget_nextPc pc lit
    push_cast at h4 hvalue
    omega

/-! PUSH and POP -/

/-- The old SP again, from 4 above it (47_macros_conventions.md R251). -/
theorem add_four_add_sext32_neg_four (a : Word) : a + sext32 4 + sext32 (-4) = a := by
  rw [add_assoc, show sext32 4 + sext32 (-4) = 0 by decide, add_zero]

/-- Settles O53: ADDC raises SP, and ST stores at 4 below the new SP, which is the old one (`add_four_add_sext32_neg_four`); the register stored is
not SP, so ADDC leaves it. -/
theorem pushStoresAtTheOldTop : Obligations.PushStoresAtTheOldTop := by
  intro s ra c hra hreach
  have hraise : exec (Asm.addc Asm.SP 4 Asm.SP) s = .next (s.writeAndAdvance Asm.SP (s.reg Asm.SP + 4)) := rfl
  have hbase : (s.writeAndAdvance Asm.SP (s.reg Asm.SP + 4)).baseAddress Asm.SP (-4) = s.reg Asm.SP := by
    rw [State.baseAddress, reg_writeAndAdvance_same (by decide)]
    exact add_four_add_sext32_neg_four _
  have htop : Reaches (s.writeAndAdvance Asm.SP (s.reg Asm.SP + 4))
      ((s.writeAndAdvance Asm.SP (s.reg Asm.SP + 4)).baseAddress Asm.SP (-4)) c := by
    rw [hbase, Reaches, writeAndAdvance_cfg]
    exact hreach
  have hstore := (exec_st ra Asm.SP (-4) _).trans (execSt_of_reaches (rc := ra) htop)
  rw [writeAndAdvance_cfg, writeAndAdvance_mem, reg_writeAndAdvance_of_ne hra] at hstore
  rw [Asm.pushCode, execAll_cons _ _ _ _ hraise, Asm.st, execAll_cons _ _ _ _ hstore, execAll_nil]
  refine ⟨_, rfl, fun a => ?mem, fun r => ?regs, ?pc, ?pending, ?env, ?cfg⟩
  case mem =>
    rw [withMem_byteAt, byte_writeWord]
    rfl
  case regs => rw [withMem_reg, advance_reg, reg_writeAndAdvance]
  case pc => rw [withMem_pc, advance_pc, writeAndAdvance_pc]
  case pending => rw [withMem_pending, advance_pending, writeAndAdvance_pending]
  case env => rw [withMem_env, advance_env, writeAndAdvance_env]
  case cfg => rw [withMem_cfg, advance_cfg, writeAndAdvance_cfg]

/-- The word below the top, 4 below SP (47_macros_conventions.md R252). -/
theorem add_sext32_neg_four (a : Word) : a + sext32 (-4) = a - 4 := by
  rw [show sext32 (-4) = -4 by decide, sub_eq_add_neg]

/-- Settles O54: LD loads from 4 below SP and, its destination not being SP, leaves SP for SUBC to lower. -/
theorem popLoadsTheTop : Obligations.PopLoadsTheTop := by
  intro s rc c hrc hreach
  have htop : Reaches s (s.baseAddress Asm.SP (-4)) c := by
    rw [State.baseAddress, add_sext32_neg_four]
    exact hreach
  have hload : exec (Asm.ld Asm.SP (-4) rc) s = .next (s.writeAndAdvance rc (Memory.readWord s.cfg.byteOrder s.mem c)) :=
    (exec_ld rc Asm.SP (-4) s).trans (load_of_reaches rc htop)
  generalize Memory.readWord s.cfg.byteOrder s.mem c = v at hload ⊢
  have hlower : exec (Asm.subc Asm.SP 4 Asm.SP) (s.writeAndAdvance rc v) =
      .next ((s.writeAndAdvance rc v).writeAndAdvance Asm.SP ((s.writeAndAdvance rc v).reg Asm.SP - 4)) := rfl
  rw [reg_writeAndAdvance_of_ne (Ne.symm hrc)] at hlower
  rw [Asm.popCode, execAll_cons _ _ _ _ hload, execAll_cons _ _ _ _ hlower, execAll_nil]
  refine ⟨_, rfl, fun r => ?regs, ?pc, fun a => ?mem, ?pending, ?env, ?cfg⟩
  case regs =>
    rw [reg_writeAndAdvance, reg_writeAndAdvance]
    split
    · rfl
    · rfl
  case pc => rw [writeAndAdvance_pc, writeAndAdvance_pc]
  case mem => rw [writeAndAdvance_byteAt, writeAndAdvance_byteAt]
  case pending => rw [writeAndAdvance_pending, writeAndAdvance_pending]
  case env => rw [writeAndAdvance_env, writeAndAdvance_env]
  case cfg => rw [writeAndAdvance_cfg, writeAndAdvance_cfg]

end Sys2Proof.Machine
end
